-- ==== Sys2Proof/Word.lean ====
section
/-! DEFINITION. The word types of the block: limbs, bytes, limb vectors, byte sequences. -/

namespace Sys2Proof

/-- A limb, "one fixed-size (32-bit) unsigned word" (R10, R19). -/
abbrev Limb := BitVec 32

/-- A byte, an integer in 0 .. 255 (R14). -/
abbrev Byte := BitVec 8

/-- A limb vector, "an ordered sequence of N = W/32 unsigned 32-bit limbs, index 0 = least significant" (R21).
That its length is N is checked by `Request.wf` and kept as an invariant of the state (R22; log entry 5). -/
abbrev LimbVec := List Limb

/-- A byte sequence, index 0 first (R41, R65). Its length is the port `blen` or `bolen` (log entry 6). -/
abbrev ByteSeq := List Byte

end Sys2Proof
end

