-- ==== Sys2Proof/Config.lean ====
section
/-! DEFINITION. The parameters of an instance: the bit width W and the constant port widths.
The block has no free value: every point the document leaves open is closed by a numbered rule, and the three
parameters the spec leaves OPEN (HANDSHAKE, MAX_IN_FLIGHT, LATENCY) are ones "a model does not take" (D21). -/

namespace Sys2Proof

/-- The four widths an instance can have, W ∈ {128, 160, 256, 512}; any other W is outside the spec (R8, D26). -/
inductive Width where
  | w128
  | w160
  | w256
  | w512
  deriving DecidableEq, Repr

/-- The bit width W (R8). -/
def Width.bits : Width → Nat
  | .w128 => 128
  | .w160 => 160
  | .w256 => 256
  | .w512 => 512

/-- The constant `LIMB_BITS` (R10). -/
def limbBits : Nat := 32

/-- The limb count N = W/32 (R8). -/
def Width.limbs (w : Width) : Nat := w.bits / limbBits

/-- The byte length of a value, W/8 = 4·N (R8). -/
def Width.bytes (w : Width) : Nat := w.bits / 8

/-- The constant `AMT_BITS`, the width of the shift amount port (R12, D8). -/
def amtBits : Nat := 32

/-- The constant `BLEN_BITS`, the width of a byte-sequence length (R12, D12). -/
def blenBits : Nat := 16

/-- The constant `NAT_BITS`, the width of the native operand port (R12, D13). -/
def natBits : Nat := 64

end Sys2Proof
end

