-- ==== Sys2Proof/Syntax.lean ====
section
/-! DEFINITION. The syntax of a request: the 28 operations of spec/opcode_table.json, their formats, and the
operand ports the host drives. -/

namespace Sys2Proof

/-- The field `sg` of a command: how a request reads its operands (R9, R61). -/
inductive Signedness where
  | unsigned   -- sg = 0
  | signed     -- sg = 1, two's complement
  deriving DecidableEq, Repr

/-- The operations of the block, one constructor per row of spec/opcode_table.json (R63). Each carries the field
`sg`, since "`sg` is present in every request" (R61); which operations read it is `Instr.readsSg` (R66). -/
inductive Instr where
  -- group 0, construction and marshalling
  | fromLimbs (sg : Signedness)
  | fromBytes (sg : Signedness)
  | toBytes (sg : Signedness)
  | fromI32 (sg : Signedness)
  | fromU32 (sg : Signedness)
  | fromI64 (sg : Signedness)
  | fromU64 (sg : Signedness)
  | toBridge (sg : Signedness)
  | fromBridge (sg : Signedness)
  -- group 1, arithmetic engine
  | plus (sg : Signedness)
  | neg (sg : Signedness)
  | add (sg : Signedness)
  | sub (sg : Signedness)
  | not (sg : Signedness)
  | and (sg : Signedness)
  | or (sg : Signedness)
  | xor (sg : Signedness)
  | mul (sg : Signedness)
  | div (sg : Signedness)
  | mod (sg : Signedness)
  -- group 2, shift engine
  | shl (sg : Signedness)
  | shr (sg : Signedness)
  -- group 3, ordering
  | cmp (sg : Signedness)
  | lt (sg : Signedness)
  | le (sg : Signedness)
  | gt (sg : Signedness)
  | ge (sg : Signedness)
  | eq (sg : Signedness)
  deriving DecidableEq, Repr

/-- The field `sg` of an instruction (R61). -/
def Instr.sg : Instr → Signedness
  | .fromLimbs sg => sg
  | .fromBytes sg => sg
  | .toBytes sg => sg
  | .fromI32 sg => sg
  | .fromU32 sg => sg
  | .fromI64 sg => sg
  | .fromU64 sg => sg
  | .toBridge sg => sg
  | .fromBridge sg => sg
  | .plus sg => sg
  | .neg sg => sg
  | .add sg => sg
  | .sub sg => sg
  | .not sg => sg
  | .and sg => sg
  | .or sg => sg
  | .xor sg => sg
  | .mul sg => sg
  | .div sg => sg
  | .mod sg => sg
  | .shl sg => sg
  | .shr sg => sg
  | .cmp sg => sg
  | .lt sg => sg
  | .le sg => sg
  | .gt sg => sg
  | .ge sg => sg
  | .eq sg => sg

/-- The same operation with another `sg`. -/
def Instr.withSg (sg : Signedness) : Instr → Instr
  | .fromLimbs _ => .fromLimbs sg
  | .fromBytes _ => .fromBytes sg
  | .toBytes _ => .toBytes sg
  | .fromI32 _ => .fromI32 sg
  | .fromU32 _ => .fromU32 sg
  | .fromI64 _ => .fromI64 sg
  | .fromU64 _ => .fromU64 sg
  | .toBridge _ => .toBridge sg
  | .fromBridge _ => .fromBridge sg
  | .plus _ => .plus sg
  | .neg _ => .neg sg
  | .add _ => .add sg
  | .sub _ => .sub sg
  | .not _ => .not sg
  | .and _ => .and sg
  | .or _ => .or sg
  | .xor _ => .xor sg
  | .mul _ => .mul sg
  | .div _ => .div sg
  | .mod _ => .mod sg
  | .shl _ => .shl sg
  | .shr _ => .shr sg
  | .cmp _ => .cmp sg
  | .lt _ => .lt sg
  | .le _ => .le sg
  | .gt _ => .gt sg
  | .ge _ => .ge sg
  | .eq _ => .eq sg

/-- The operation formats of R62. -/
inductive Format where
  | u    -- unary limb: reads A, writes R
  | ub   -- unary to bytes: reads A, writes bolen and bout
  | l    -- two limb vectors: reads A and B, writes R
  | lx   -- two limb vectors, no result: reads nothing, status NOT_IMPLEMENTED
  | lo   -- two limb vectors to ordering: reads A and B, writes ord
  | lf   -- two limb vectors to flag: reads A and B, writes flag
  | s    -- shift: reads A and amt, writes R
  | n    -- native: reads nat, writes R
  | y    -- bytes in: reads blen and bin, writes R
  | yf   -- bytes in with success flag: reads blen and bin, writes R and flag
  deriving DecidableEq, Repr

/-- The format of each operation (R62, R63). -/
def Instr.format : Instr → Format
  | .fromLimbs _ => .u
  | .fromBytes _ => .y
  | .toBytes _ => .ub
  | .fromI32 _ => .n
  | .fromU32 _ => .n
  | .fromI64 _ => .n
  | .fromU64 _ => .n
  | .toBridge _ => .ub
  | .fromBridge _ => .yf
  | .plus _ => .u
  | .neg _ => .u
  | .add _ => .l
  | .sub _ => .l
  | .not _ => .u
  | .and _ => .l
  | .or _ => .l
  | .xor _ => .l
  | .mul _ => .lx
  | .div _ => .lx
  | .mod _ => .lx
  | .shl _ => .s
  | .shr _ => .s
  | .cmp _ => .lo
  | .lt _ => .lf
  | .le _ => .lf
  | .gt _ => .lf
  | .ge _ => .lf
  | .eq _ => .lf

/-- Whether the result depends on `sg`: "exactly SHR, CMP, LT, LE, GT, GE, TOBRIDGE and FROMBRIDGE" (R66). -/
def Instr.readsSg : Instr → Bool
  | .fromLimbs _ => false
  | .fromBytes _ => false
  | .toBytes _ => false
  | .fromI32 _ => false
  | .fromU32 _ => false
  | .fromI64 _ => false
  | .fromU64 _ => false
  | .toBridge _ => true
  | .fromBridge _ => true
  | .plus _ => false
  | .neg _ => false
  | .add _ => false
  | .sub _ => false
  | .not _ => false
  | .and _ => false
  | .or _ => false
  | .xor _ => false
  | .mul _ => false
  | .div _ => false
  | .mod _ => false
  | .shl _ => false
  | .shr _ => true
  | .cmp _ => true
  | .lt _ => true
  | .le _ => true
  | .gt _ => true
  | .ge _ => true
  | .eq _ => false

/-- Why a command byte is illegal (R67). -/
inductive Reject where
  | reservedBit   -- `rsv` = 1
  | reservedOp    -- `op` is not one of the 28 codes
  deriving DecidableEq, Repr

/-- The request ports, all driven by the host (R26): the command byte and the operand ports. The port `blen` is the
length of `bin` (`blen` below; log entry 6). -/
structure Request where
  cmd : Byte
  A   : LimbVec
  B   : LimbVec
  amt : BitVec 32
  nat : BitVec 64
  bin : ByteSeq
  deriving DecidableEq, Repr

/-- The port `blen`: `bin` is a sequence of blen bytes (R26). -/
def Request.blen (r : Request) : Nat := r.bin.length

/-- The request ports drawn as bit vectors, the limb-vector ports of W = 32·n bits (R64, R65). -/
structure PackedRequest (n : Nat) where
  cmd  : Byte
  A    : BitVec (32 * n)
  B    : BitVec (32 * n)
  amt  : BitVec 32
  nat  : BitVec 64
  blen : BitVec 16
  bin  : ByteSeq
  deriving DecidableEq, Repr

end Sys2Proof
end

