-- ==== Sys2Proof/WellFormed.lean ====
section
/-! DEFINITION. What is well formed: a legal command byte (R67), an instruction (every operation with either `sg` is
one), a request whose ports have the sizes of the instance (R26), and the notation's canonical `sg` (R71). -/

namespace Sys2Proof

/-- The check on `rsv`: bit 6 of a legal command byte is 0 (R61, R67). -/
def rsvClear (cmd : Byte) : Bool := !cmd.getLsbD 6

/-- The reserved `op` values, listed as R67 lists them: "0x09 to 0x0F, 0x1B to 0x1F, 0x22 to 0x2F and 0x36 to
0x3F (36 codes)". -/
def reservedOp (op : Nat) : Bool :=
  (0x09 ≤ op && op ≤ 0x0F) || (0x1B ≤ op && op ≤ 0x1F) || (0x22 ≤ op && op ≤ 0x2F) || (0x36 ≤ op && op ≤ 0x3F)

/-- A legal command byte: `rsv` = 0 and `op`, the low six bits, not reserved (R67). -/
def legalCommand (cmd : Byte) : Bool := rsvClear cmd && !reservedOp (cmd.toNat % 64)

/-- Every operation with either value of `sg` has a command byte (R63: "each operation has exactly two command
bytes"), so no term of `Instr` is ill formed. -/
def Instr.wellFormed (_ : Instr) : Bool := true

/-- The notation's canonical form: on an operation that ignores `sg` "the suffix is omitted and `sg` = 0 is encoded"
(R71). It is a convention of the host's notation; the decoder accepts both forms (R63). -/
def Instr.canonical (i : Instr) : Bool := i.readsSg || i.sg == .unsigned

/-- A request whose ports fit an instance of n limbs: `A` and `B` are n limbs each, and `blen` fits its 16-bit port
(R26, R65). -/
abbrev Request.wf (n : Nat) (r : Request) : Prop :=
  r.A.length = n ∧ r.B.length = n ∧ r.blen < 2 ^ blenBits

end Sys2Proof
end

