-- ==== Sys2Proof/Decode.lean ====
section
/-! DEFINITION. The decoder, total on the 256 command bytes (R70), the encoder, and the packing of the ports as bit
vectors (R64, R65). The semantic files do not depend on any code's numeric value (30_encoding.md, "Read this first"). -/

namespace Sys2Proof

/-- The field `op`, `cmd[5:0]` (R61). -/
def opField (cmd : Byte) : Nat := cmd.toNat % 64

/-- The field `rsv`, `cmd[6]` (R61). -/
def rsvField (cmd : Byte) : Bool := cmd.getLsbD 6

/-- The field `sg`, `cmd[7]` (R61). -/
def sgField (cmd : Byte) : Signedness := if cmd.getLsbD 7 then .signed else .unsigned

/-- The operation map (R63). A code not in the table is reserved. -/
def decodeOp (op : Nat) (sg : Signedness) : Option Instr :=
  match op with
  | 0x00 => some (.fromLimbs sg)
  | 0x01 => some (.fromBytes sg)
  | 0x02 => some (.toBytes sg)
  | 0x03 => some (.fromI32 sg)
  | 0x04 => some (.fromU32 sg)
  | 0x05 => some (.fromI64 sg)
  | 0x06 => some (.fromU64 sg)
  | 0x07 => some (.toBridge sg)
  | 0x08 => some (.fromBridge sg)
  | 0x10 => some (.plus sg)
  | 0x11 => some (.neg sg)
  | 0x12 => some (.add sg)
  | 0x13 => some (.sub sg)
  | 0x14 => some (.not sg)
  | 0x15 => some (.and sg)
  | 0x16 => some (.or sg)
  | 0x17 => some (.xor sg)
  | 0x18 => some (.mul sg)
  | 0x19 => some (.div sg)
  | 0x1A => some (.mod sg)
  | 0x20 => some (.shl sg)
  | 0x21 => some (.shr sg)
  | 0x30 => some (.cmp sg)
  | 0x31 => some (.lt sg)
  | 0x32 => some (.le sg)
  | 0x33 => some (.gt sg)
  | 0x34 => some (.ge sg)
  | 0x35 => some (.eq sg)
  | _ => none

/-- The decoder: "every one of the 256 values of `cmd` decodes either to one of the 28 operations with an `sg`
value … or to illegal" (R70), the illegal ones named by what makes them so (R67). -/
def decode (cmd : Byte) : Except Reject Instr :=
  match rsvField cmd, decodeOp (opField cmd) (sgField cmd) with
  | true, _ => .error .reservedBit
  | false, none => .error .reservedOp
  | false, some i => .ok i

/-- The operation code of each operation (R63). -/
def opCode : Instr → Nat
  | .fromLimbs _ => 0x00
  | .fromBytes _ => 0x01
  | .toBytes _ => 0x02
  | .fromI32 _ => 0x03
  | .fromU32 _ => 0x04
  | .fromI64 _ => 0x05
  | .fromU64 _ => 0x06
  | .toBridge _ => 0x07
  | .fromBridge _ => 0x08
  | .plus _ => 0x10
  | .neg _ => 0x11
  | .add _ => 0x12
  | .sub _ => 0x13
  | .not _ => 0x14
  | .and _ => 0x15
  | .or _ => 0x16
  | .xor _ => 0x17
  | .mul _ => 0x18
  | .div _ => 0x19
  | .mod _ => 0x1A
  | .shl _ => 0x20
  | .shr _ => 0x21
  | .cmp _ => 0x30
  | .lt _ => 0x31
  | .le _ => 0x32
  | .gt _ => 0x33
  | .ge _ => 0x34
  | .eq _ => 0x35

/-- The bit `sg` of a command byte: 1 signed, 0 unsigned (R61). -/
def sgBit : Signedness → Nat
  | .unsigned => 0
  | .signed => 1

/-- The encoder: bit 7 `sg`, bit 6 zero, bits 5:0 `op`, so the two bytes of an operation are `op` and `op + 0x80`
(R61, R63). -/
def encode (i : Instr) : Byte := BitVec.ofNat 8 (opCode i + 0x80 * sgBit i.sg)

/-- A limb-vector port drawn as one bit vector: "limb i occupies bits 32·i + 31 : 32·i" (R64). -/
def packLimbs (n : Nat) (v : LimbVec) : BitVec (32 * n) :=
  (List.range n).foldl (fun acc i => acc ||| ((v.getD i 0).setWidth (32 * n) <<< (32 * i))) 0

/-- The limb vector drawn by a bit vector of 32·n bits (R64). -/
def unpackLimbs (n : Nat) (b : BitVec (32 * n)) : LimbVec :=
  (List.range n).map fun i => b.extractLsb' (32 * i) 32

/-- The request ports drawn as bit vectors for an operation and its operands; the command byte is the operation's
(R60, R64, R65). -/
def encodeRequest (n : Nat) (i : Instr) (r : Request) : PackedRequest n where
  cmd := encode i
  A := packLimbs n r.A
  B := packLimbs n r.B
  amt := r.amt
  nat := r.nat
  blen := BitVec.ofNat 16 r.blen
  bin := r.bin

/-- The request a set of drawn ports stands for: `bin` is blen bytes (R65). -/
def unpackRequest (n : Nat) (p : PackedRequest n) : Request where
  cmd := p.cmd
  A := unpackLimbs n p.A
  B := unpackLimbs n p.B
  amt := p.amt
  nat := p.nat
  bin := p.bin.take p.blen.toNat

/-- Decode the command byte of drawn ports and read their operands. -/
def decodeRequest (n : Nat) (p : PackedRequest n) : Except Reject (Instr × Request) :=
  match decode p.cmd with
  | .error e => .error e
  | .ok i => .ok (i, unpackRequest n p)

/-- The command byte of a table word: the command is always exactly 8 bits (R60), and bits above `nbits` are 0. -/
def commandOfTableWord (nbits w : Nat) : Byte := BitVec.ofNat 8 (w % 2 ^ nbits)

/-- The operation the decoder reads from a table word. -/
def decodeTableWord (nbits w : Nat) : Option Instr :=
  match decode (commandOfTableWord nbits w) with
  | .ok i => some i
  | .error _ => none

end Sys2Proof
end

