-- ==== Sys2Proof/Machine/State.lean ====
section
/-! DEFINITION. The state of the machine as plain data: the instance parameter, the request ports, whether a request is
in progress, and the response ports. The block keeps nothing else: no register file, program counter, flag, control
register or memory exists (R20, R28 to R32, R40). -/

namespace Sys2Proof.Machine

/-- The three signals of the block (R190): its analogue of exceptions. -/
inductive Signal where
  | invalidArgument   -- FROMBYTES with blen ≠ 4·N (R191)
  | notImplemented    -- MUL, DIV, MOD, always (R192)
  | illegalRequest    -- an illegal command byte (R193)
  deriving DecidableEq, Repr

/-- The port `status` (R27, R68): OK, or one of the three signals. -/
inductive Status where
  | ok
  | signalled (sig : Signal)
  deriving DecidableEq, Repr

/-- The port `ord`: the three-way result of CMP (R27, R150). Its fourth code is never produced (R68). -/
inductive Order where
  | less
  | equal
  | greater
  deriving DecidableEq, Repr

/-- The response ports (R27). A result port the operation does not write, and every result port of a signalled
response, "carries no value": it is `none`, never a default (D11, U6). The port `bolen` is the length of `bout`. -/
structure Response where
  status : Status
  R      : Option LimbVec
  ord    : Option Order
  flag   : Option Bool
  bout   : Option ByteSeq
  deriving DecidableEq, Repr

/-- The port `bolen`: `bout` is a sequence of bolen bytes (R27). -/
def Response.bolen (r : Response) : Option Nat := r.bout.map List.length

/-- The response ports drawn as bit vectors (R64, R65, R68). -/
structure PackedResponse (n : Nat) where
  status : BitVec 2
  R      : Option (BitVec (32 * n))
  ord    : Option (BitVec 2)
  flag   : Option (BitVec 1)
  bolen  : Option (BitVec 16)
  bout   : Option ByteSeq
  deriving DecidableEq, Repr

/-- The machine: one instance of the block with the ports at its boundary. -/
structure State where
  /-- The instance parameter W, "which no request can read or change" (R8, R31). -/
  width    : Width
  /-- The request ports, driven by the host (R26). -/
  request  : Request
  /-- A request is being taken: it has been issued and has not been answered (R210, R217). -/
  pending  : Bool
  /-- The response ports: a response, or no value (R27, R35). What they show between responses is the model's choice (log
  entries 3 and 18). -/
  response : Option Response
  deriving DecidableEq, Repr

/-- Reasons the machine stops with a fault: there are none. Every error of the block is a signal, delivered as a
response after which the block is ready for the next request (R190, R198, R199), and everything else is total (R195).
An empty set of faults is the spec's own, so it is neither a safe nor an unsafe departure. -/
inductive Fault where
  deriving DecidableEq, Repr

/-- Reasons the model gives an instruction no meaning. -/
inductive Refusal where
  /-- Raised by `exec` for an operation without a meaning in this model; safe, since nothing is then claimed of it.
  No arm of `exec` raises it. -/
  | notModelled (mnemonic : String)
  deriving DecidableEq, Repr

/-- The state with the response `r` on its ports: the request has got its one response and is no longer in progress;
nothing else changes (R20, R25, R217). -/
def State.answered (s : State) (r : Response) : State := { s with pending := false, response := some r }

/-- The levels of the request ports of an n-limb instance before the host drives them. The spec gives none ("host's",
10_state.md, inventory table): all zero, DESIGN CHOICE, log entry 2. -/
def Request.atReset (n : Nat) : Request where
  cmd := 0
  A := List.replicate n 0
  B := List.replicate n 0
  amt := 0
  nat := 0
  bin := []

/-- An instance of width `w` after reset: "No request is in progress. The response ports carry no value until the
first request has been answered" (R35, R210). -/
def State.resetOf (w : Width) : State where
  width := w
  request := Request.atReset w.limbs
  pending := false
  response := none

/-- The machine after reset. The width of the instance is DESIGN CHOICE (log entry 1): `State.resetOf` gives the
other three. -/
def State.reset : State := State.resetOf .w128

end Sys2Proof.Machine
end

