-- ==== Sys2Proof/Machine/Value.lean ====
section
/-! DEFINITION. The notation of 00_scope.md: limbs of a vector, its unsigned and signed value, the operations on one
limb, and the named constants. -/

namespace Sys2Proof.Machine

/-- Limb i of a vector, `v[i]` for 0 ≤ i < N (R15). The value 0 for an index with no limb is read only when a port is
shorter than N limbs, which no well-formed request is (log entry 5). -/
def limb (v : LimbVec) (i : Nat) : Limb := v.getD i 0

/-- The vector of n limbs whose limb i is `f i`: the loop `for i = 0 .. N-1: R[i] <- f i` (R18). -/
def build (n : Nat) (f : Nat → Limb) : LimbVec := (List.range n).map f

/-- `val_u(v)` = Σ over i of v[i]·2^(32·i) (R16). -/
def valU : LimbVec → Nat
  | [] => 0
  | l :: v => l.toNat + 2 ^ 32 * valU v

/-- `signbit(v)`, "the highest bit of limb N−1" (R16, R23). -/
def signbit (n : Nat) (v : LimbVec) : Bool := (limb v (n - 1)).msb

/-- `val_s(v)` = val_u(v) − 2^W·signbit(v) (R16). -/
def valS (n : Nat) (v : LimbVec) : Int := (valU v : Int) - (if signbit n v then 2 ^ (32 * n) else 0)

/-- `val(sg, v)` (R16). -/
def val (sg : Signedness) (n : Nat) (v : LimbVec) : Int :=
  match sg with
  | .signed => valS n v
  | .unsigned => (valU v : Int)

/-- `limbs(x)`: limb i is ((x mod 2^W) div 2^(32·i)) mod 2^32 (R16). -/
def limbsOf (n : Nat) (x : Int) : LimbVec :=
  build n fun i => BitVec.ofNat 32 ((x % 2 ^ (32 * n)).toNat / 2 ^ (32 * i))

/-- `shl32(x, s)` = (x·2^s) mod 2^32, "defined only for 0 ≤ s ≤ 31" (R17): the distance is a `Fin 32`, so no limb can
be shifted by 32 (R134, R212, U1). -/
def shl32 (x : Limb) (s : Fin 32) : Limb := x <<< s.val

/-- `shr32(x, s)` = x div 2^s, for 0 ≤ s ≤ 31 only (R17). -/
def shr32 (x : Limb) (s : Fin 32) : Limb := x >>> s.val

/-- The complementary distance 32 − s, which exists only for s > 0 (R134). -/
def coDistance (s : Fin 32) (h : s ≠ 0) : Fin 32 := ⟨32 - s.val, by omega⟩

/-- The limb that stands for 32 copies of one bit: 0xFFFFFFFF or 0 (R82, R131). -/
def fillLimb (b : Bool) : Limb := if b then 0xFFFFFFFF else 0

/-- `Zero`, every limb 0 (R33). -/
def zeroVec (n : Nat) : LimbVec := build n fun _ => 0

/-- `One`, limb 0 = 1 and the others 0 (R33). -/
def oneVec (n : Nat) : LimbVec := build n fun i => if i = 0 then 1 else 0

/-- `MaxU`, every limb 0xFFFFFFFF (R34). -/
def maxU (n : Nat) : LimbVec := build n fun _ => 0xFFFFFFFF

/-- `MaxS`, limb N−1 = 0x7FFFFFFF and the others 0xFFFFFFFF (R34). -/
def maxS (n : Nat) : LimbVec := build n fun i => if i = n - 1 then 0x7FFFFFFF else 0xFFFFFFFF

/-- `MinS`, limb N−1 = 0x80000000 and the others 0 (R34). -/
def minS (n : Nat) : LimbVec := build n fun i => if i = n - 1 then 0x80000000 else 0

end Sys2Proof.Machine
end

