-- ==== Sys2Proof/Machine/Ops.lean ====
section
/-! DEFINITION. The shared operations: issuing and answering a request, raising a signal (the block's only exception
entry), reset, and the byte layout of a value. -/

namespace Sys2Proof.Machine

/-- The limb count N of the instance (R8). -/
def State.limbCount (s : State) : Nat := s.width.limbs

/-- A response with status OK and no result port written; the operations below write the ports of a format (R62). -/
def Response.okOnly : Response where
  status := .ok
  R := none
  ord := none
  flag := none
  bout := none

/-- The response of the formats that write `R` alone (R62). -/
def Response.limbs (v : LimbVec) : Response := { Response.okOnly with R := some v }

/-- The response of format YF: `R` and `flag` (R62). -/
def Response.limbsFlag (v : LimbVec) (b : Bool) : Response := { Response.okOnly with R := some v, flag := some b }

/-- The response of format UB: `bolen` and `bout` (R62). -/
def Response.bytes (b : ByteSeq) : Response := { Response.okOnly with bout := some b }

/-- The response of format LO: `ord` (R62). -/
def Response.order (o : Order) : Response := { Response.okOnly with ord := some o }

/-- The response of format LF: `flag` (R62). -/
def Response.truth (b : Bool) : Response := { Response.okOnly with flag := some b }

/-- The response to a signalled request "is the status code alone" (R190, R198). -/
def Response.signal (sig : Signal) : Response := { Response.okOnly with status := .signalled sig }

/-- The state in which `r` is the request being taken: its values are on the request ports (R26). This describes a state,
it is no move of the host; `State.present` is. The response ports keep what they showed before until the answer: DESIGN
CHOICE, log entry 18, since R217 leaves open "what the ports show between responses". -/
def State.taking (s : State) (r : Request) : State := { s with request := r, pending := true }

/-- The host's move of issuing a request: it drives the request ports (R26, R217). While a request is being taken its ports
must hold, and "a model has no such move" as one that changes them (R52, U7): there is then no next state. That the
response ports stay as they are is the model's choice (log entry 18). -/
def State.present (s : State) (r : Request) : Option State :=
  match s.pending with
  | true => none
  | false => some (s.taking r)

/-- The platform's reset: "the instance parameter W is what it was at instantiation. No request is in progress. The
response ports carry no value"; a request being taken is discarded (R210). The request ports are the host's (log
entry 15). -/
def State.applyReset (s : State) : State := { s with pending := false, response := none }

/-- The state in which the host can next issue a request without waiting for an answer: the state itself, or, while a
request is being taken, the one after the platform's reset, which discards that request (R52, R210). -/
def State.freed (s : State) : State :=
  match s.pending with
  | true => s.applyReset
  | false => s

/-- `respond(...)`: end the request with a response (R18). Exactly one response per request (R216, R217). -/
def respond (r : Response) (s : State) : Host.Outcome State Fault Refusal := .next (s.answered r)

/-- `raise <Signal>`, taking an exception: "A signal is delivered as the response to the request that caused it, on
the `status` port, and as nothing else. No state is saved, because there is none; no mode or mask changes; no control
goes anywhere" (R18, R198). There is no return operation to model beside it: "nothing to restore, nothing to
re-enable, and no nesting" (R199). -/
def raiseSignal (sig : Signal) (s : State) : Host.Outcome State Fault Refusal := respond (Response.signal sig) s

/-- A step with no request in progress: the block waits, and its response ports carry no value, a response being
"valid once per request" (R27). DESIGN CHOICE, log entry 3. -/
def idle (s : State) : Host.Outcome State Fault Refusal := .next { s with response := none }

/-- An illegal command byte "is answered with status ILLEGAL_REQUEST and no result, whatever the operand ports hold"
(R67, R193), whichever of its two checks failed. -/
def rejectCommand (_ : Reject) (s : State) : Host.Outcome State Fault Refusal := raiseSignal .illegalRequest s

/-- Byte m of the layout of a value: byte 4·i + j is `v[i][8·j+7 : 8·j]` (R42). -/
def layoutByte (v : LimbVec) (m : Nat) : Byte := (limb v (m / 4)).extractLsb' (8 * (m % 4)) 8

/-- The byte layout of a value of n limbs, 4·n bytes (R42, R86). -/
def layout (n : Nat) (v : LimbVec) : ByteSeq := (List.range (4 * n)).map (layoutByte v)

/-- The limb made of four bytes, least significant first (R80). -/
def limbOfBytes (b0 b1 b2 b3 : Byte) : Limb :=
  BitVec.ofNat 32 (b0.toNat + b1.toNat * 2 ^ 8 + b2.toNat * 2 ^ 16 + b3.toNat * 2 ^ 24)

/-- The value of n limbs whose byte m is `f m`: "each consecutive 4-byte group, little-endian, becomes one limb"
(R80, R172). -/
def limbsOfBytes (n : Nat) (f : Nat → Byte) : LimbVec :=
  build n fun i => limbOfBytes (f (4 * i)) (f (4 * i + 1)) (f (4 * i + 2)) (f (4 * i + 3))

end Sys2Proof.Machine
end

