-- ==== Sys2Proof/Machine/Operands.lean ====
section
/-! DEFINITION. The operand forms (R62, R65): how an operation reads the request ports. There are no immediates and no
addressing modes: "every operand is a port value" (R65, R74). -/

namespace Sys2Proof.Machine

/-- The port `A` (R26). -/
def opA (s : State) : LimbVec := s.request.A

/-- The port `B` (R26). -/
def opB (s : State) : LimbVec := s.request.B

/-- `nat[31:0]` (R65). -/
def natLow (s : State) : Limb := s.request.nat.extractLsb' 0 32

/-- `nat[63:32]`, read by FROMI64 and FROMU64 only (R65). -/
def natHigh (s : State) : Limb := s.request.nat.extractLsb' 32 32

/-- The limb offset k = amt div 32 (R130). The amount is not reduced modulo anything. -/
def limbOffset (amt : BitVec 32) : Nat := amt.toNat / 32

/-- The intra-limb shift s = amt mod 32 (R130). -/
def bitOffset (amt : BitVec 32) : Fin 32 := ⟨amt.toNat % 32, Nat.mod_lt _ (by decide)⟩

/-- `bin[m]` for m < blen (R18); `pad` stands for a byte the sequence does not have (R172; FROMBYTES reads none). -/
def byteAt (bin : ByteSeq) (pad : Byte) (m : Nat) : Byte := bin.getD m pad

/-- The sign of a bridge sequence: L ≥ 1 and bit 7 of its last byte is 1 (R170, R172). -/
def bridgeNegative (b : ByteSeq) : Bool := decide (1 ≤ b.length) && (b.getD (b.length - 1) 0).msb

/-- The value of bytes read least significant first: Σ over m of b[m]·2^(8·m) (R43, R170). -/
def valBytes : ByteSeq → Nat
  | [] => 0
  | b :: bs => b.toNat + 2 ^ 8 * valBytes bs

/-- `bval(b)`, the two's-complement number a bridge sequence holds; 0 for the empty sequence (R170). -/
def bval (b : ByteSeq) : Int := (valBytes b : Int) - (if bridgeNegative b then 2 ^ (8 * b.length) else 0)

end Sys2Proof.Machine
end

