-- ==== Sys2Proof/Machine/Flags.lean ====
section
/-! DEFINITION. The result ports that carry a code: `status`, `ord` and `flag`. The block has no flags and no
condition codes (R30): `ord` and `flag` are results of the request itself. -/

namespace Sys2Proof.Machine

/-- The three-way comparison of two numbers (R150). -/
def orderOfValues (x y : Int) : Order := if x < y then .less else if x = y then .equal else .greater

/-- `flag` of LT: CMP = LESS (R151). -/
def flagLess : Order → Bool
  | .less => true
  | .equal => false
  | .greater => false

/-- `flag` of GT: CMP = GREATER (R153). -/
def flagGreater : Order → Bool
  | .less => false
  | .equal => false
  | .greater => true

/-- `flag` of LE: CMP ≠ GREATER (R152). -/
def flagNotGreater (o : Order) : Bool := !flagGreater o

/-- `flag` of GE: CMP ≠ LESS (R154). -/
def flagNotLess (o : Order) : Bool := !flagLess o

/-- The code of a signal (R68, R190). -/
def signalCode : Signal → BitVec 2
  | .invalidArgument => 0b01
  | .notImplemented => 0b10
  | .illegalRequest => 0b11

/-- The code on the port `status` (R68, R190). -/
def statusCode : Status → BitVec 2
  | .ok => 0b00
  | .signalled sig => signalCode sig

/-- The code on the port `ord`: LESS 0b11, EQUAL 0b00, GREATER 0b01; "0b10 is never produced" (R68). -/
def orderCode : Order → BitVec 2
  | .less => 0b11
  | .equal => 0b00
  | .greater => 0b01

/-- The bit on the port `flag`: 1 true, 0 false (R68). -/
def flagCode (b : Bool) : BitVec 1 := if b then 1 else 0

/-- The response ports drawn as bit vectors (R64, R65, R68). -/
def packResponse (n : Nat) (r : Response) : PackedResponse n where
  status := statusCode r.status
  R := r.R.map (packLimbs n)
  ord := r.ord.map orderCode
  flag := r.flag.map flagCode
  bolen := r.bolen.map (BitVec.ofNat 16)
  bout := r.bout

end Sys2Proof.Machine
end

