-- ==== Sys2Proof/Machine/Construction.lean ====
section
/-! DEFINITION. Construction and byte-array marshalling (40_construction.md): FROMBYTES, FROMLIMBS, FROMI32, FROMU32,
FROMI64, FROMU64, TOBYTES. None of the seven reads `sg`. -/

namespace Sys2Proof.Machine

/-- The value copied limb by limb (R81, R100). -/
def copyLimbs (n : Nat) (a : LimbVec) : LimbVec := build n (limb a)

/-- A 32-bit native value with its extension limb above (R82, R83). -/
def extend32 (n : Nat) (lo f : Limb) : LimbVec := build n fun i => if i = 0 then lo else f

/-- A 64-bit native value with its extension limbs above (R84, R85). -/
def extend64 (n : Nat) (lo hi f : Limb) : LimbVec := build n fun i => if i = 0 then lo else if i = 1 then hi else f

/-- FROMLIMBS: "direct assignment, no validation needed" (R81). -/
def execFromLimbs (s : State) : Host.Outcome State Fault Refusal :=
  respond (.limbs (copyLimbs s.limbCount (opA s))) s

/-- FROMBYTES: INVALID_ARGUMENT exactly when blen ≠ 4·N, before any byte is read; else the little-endian value (R80,
R191). -/
def execFromBytes (s : State) : Host.Outcome State Fault Refusal :=
  if s.request.blen ≠ 4 * s.limbCount then raiseSignal .invalidArgument s
  else respond (.limbs (limbsOfBytes s.limbCount (byteAt s.request.bin 0))) s

/-- TOBYTES: the 4·N bytes of the layout, never trimmed (R86). -/
def execToBytes (s : State) : Host.Outcome State Fault Refusal :=
  respond (.bytes (layout s.limbCount (opA s))) s

/-- FROMI32: `nat[31:0]`, sign-extended whatever `sg` is (R82). -/
def execFromI32 (s : State) : Host.Outcome State Fault Refusal :=
  respond (.limbs (extend32 s.limbCount (natLow s) (fillLimb (natLow s).msb))) s

/-- FROMU32: `nat[31:0]`, zero-extended (R83). -/
def execFromU32 (s : State) : Host.Outcome State Fault Refusal :=
  respond (.limbs (extend32 s.limbCount (natLow s) 0)) s

/-- FROMI64: `nat[63:0]`, sign-extended (R84). -/
def execFromI64 (s : State) : Host.Outcome State Fault Refusal :=
  respond (.limbs (extend64 s.limbCount (natLow s) (natHigh s) (fillLimb (natHigh s).msb))) s

/-- FROMU64: `nat[63:0]`, zero-extended (R85). -/
def execFromU64 (s : State) : Host.Outcome State Fault Refusal :=
  respond (.limbs (extend64 s.limbCount (natLow s) (natHigh s) 0)) s

end Sys2Proof.Machine
end

