-- ==== Sys2Proof/Machine/Arithmetic.lean ====
section
/-! DEFINITION. The multi-limb ALU (41_arithmetic.md): PLUS, NEG, ADD, SUB, NOT, AND, OR, XOR, and the three operations
that are deliberately not implemented, MUL, DIV, MOD. None of the eleven reads `sg` (R112), and none gives a carry or
an overflow (R30). -/

namespace Sys2Proof.Machine

/-- The carry into limb i of a ripple-carry addition that starts with the carry `c` into limb 0: "carry = sum shifted
right by 32" (R102). The accumulator is an unbounded natural, which gives the result of any accumulator of 33 bits or
more (R11, D18). -/
def carryInto (c : Nat) (a b : LimbVec) : Nat → Nat
  | 0 => c
  | i + 1 => (carryInto c a b i + (limb a i).toNat + (limb b i).toNat) / 2 ^ 32

/-- Ripple-carry addition with a carry into limb 0: limb i is "low 32 bits of sum"; the carry out of the top limb is
discarded (R102). -/
def addWithCarry (n c : Nat) (a b : LimbVec) : LimbVec :=
  build n fun i => BitVec.ofNat 32 (carryInto c a b i + (limb a i).toNat + (limb b i).toNat)

/-- ADD(left, right): "The carry into limb 0 is 0" (R102, D18). -/
def addLimbs (n : Nat) (a b : LimbVec) : LimbVec := addWithCarry n 0 a b

/-- BitwiseNot, limb by limb (R104). -/
def notLimbs (n : Nat) (a : LimbVec) : LimbVec := build n fun i => ~~~(limb a i)

/-- Negate = BitwiseNot(value) + One (R101). -/
def negLimbs (n : Nat) (a : LimbVec) : LimbVec := addLimbs n (notLimbs n a) (oneVec n)

/-- Subtract(left, right) = Add(left, Negate(right)) (R103). -/
def subLimbs (n : Nat) (a b : LimbVec) : LimbVec := addLimbs n a (negLimbs n b)

/-- "A hardware implementation may compute the same R in one pass as A + NOT(B) with a carry of 1 into limb 0" (R103);
no operation uses this form. -/
def subOnePass (n : Nat) (a b : LimbVec) : LimbVec := addWithCarry n 1 a (notLimbs n b)

/-- And, limb by limb (R105). -/
def andLimbs (n : Nat) (a b : LimbVec) : LimbVec := build n fun i => limb a i &&& limb b i

/-- Or, limb by limb (R106). -/
def orLimbs (n : Nat) (a b : LimbVec) : LimbVec := build n fun i => limb a i ||| limb b i

/-- Xor, limb by limb (R107). -/
def xorLimbs (n : Nat) (a b : LimbVec) : LimbVec := build n fun i => limb a i ^^^ limb b i

/-- PLUS: identity (R100). -/
def execPlus (s : State) : Host.Outcome State Fault Refusal :=
  respond (.limbs (copyLimbs s.limbCount (opA s))) s

/-- NEG, accepted by every instance and with either `sg` (R101, D22). -/
def execNeg (s : State) : Host.Outcome State Fault Refusal :=
  respond (.limbs (negLimbs s.limbCount (opA s))) s

/-- ADD, wrapping silently modulo 2^W (R102). -/
def execAdd (s : State) : Host.Outcome State Fault Refusal :=
  respond (.limbs (addLimbs s.limbCount (opA s) (opB s))) s

/-- SUB (R103). -/
def execSub (s : State) : Host.Outcome State Fault Refusal :=
  respond (.limbs (subLimbs s.limbCount (opA s) (opB s))) s

/-- NOT (R104). -/
def execNot (s : State) : Host.Outcome State Fault Refusal :=
  respond (.limbs (notLimbs s.limbCount (opA s))) s

/-- AND (R105). -/
def execAnd (s : State) : Host.Outcome State Fault Refusal :=
  respond (.limbs (andLimbs s.limbCount (opA s) (opB s))) s

/-- OR (R106). -/
def execOr (s : State) : Host.Outcome State Fault Refusal :=
  respond (.limbs (orLimbs s.limbCount (opA s) (opB s))) s

/-- XOR (R107). -/
def execXor (s : State) : Host.Outcome State Fault Refusal :=
  respond (.limbs (xorLimbs s.limbCount (opA s) (opB s))) s

/-- MUL: "NOT_IMPLEMENTED, always, for every operand value and either `sg`"; no operand is read and no product exists
(R108, R113). -/
def execMul (s : State) : Host.Outcome State Fault Refusal := raiseSignal .notImplemented s

/-- DIV: NOT_IMPLEMENTED, always, a zero divisor included (R109). -/
def execDiv (s : State) : Host.Outcome State Fault Refusal := raiseSignal .notImplemented s

/-- MOD: NOT_IMPLEMENTED, always (R110). -/
def execMod (s : State) : Host.Outcome State Fault Refusal := raiseSignal .notImplemented s

end Sys2Proof.Machine
end

