-- ==== Sys2Proof/Machine/Bridge.lean ====
section
/-! DEFINITION. The byte half of the conversion bridge (44_bridge.md): TOBRIDGE, FROMBRIDGE. -/

namespace Sys2Proof.Machine

/-- The bridge sequence of a value: its layout, and one zero byte more when `sg` = 0 and the sign bit is set (R171). -/
def toBridge (sg : Signedness) (n : Nat) (a : LimbVec) : ByteSeq :=
  match sg with
  | .unsigned => if signbit n a then layout n a ++ [0] else layout n a
  | .signed => layout n a

/-- The pad byte of a short sequence: a copy of its sign, 0xFF or 0x00 (R172, D14). -/
def bridgePad (b : ByteSeq) : Byte := if bridgeNegative b then 0xFF else 0x00

/-- The one over-long shape that is tolerated: `sg` = 0, L = 4·N + 1, last byte 0x00, and bit 7 of byte 4·N − 1 set
(R172, D15). -/
def toleratedZero (sg : Signedness) (n : Nat) (b : ByteSeq) : Bool :=
  decide (sg = .unsigned) && decide (b.length = 4 * n + 1) && (byteAt b 0 (4 * n) == 0) &&
    (byteAt b 0 (4 * n - 1)).msb

/-- The value a bridge sequence builds, or none where R172 says `fail`. -/
def fromBridge (sg : Signedness) (n : Nat) (b : ByteSeq) : Option LimbVec :=
  if b.length ≤ 4 * n then
    if decide (sg = .unsigned) && bridgeNegative b then none
    else some (limbsOfBytes n (byteAt b (bridgePad b)))
  else if toleratedZero sg n b then some (limbsOfBytes n (byteAt b 0))
  else none

/-- TOBRIDGE (R171). -/
def execToBridge (sg : Signedness) (s : State) : Host.Outcome State Fault Refusal :=
  respond (.bytes (toBridge sg s.limbCount (opA s))) s

/-- FROMBRIDGE: on success the value and flag 1, "on failure, set the output to the zero value and report failure —
never throw"; the status is OK in both cases (R172, R194). -/
def execFromBridge (sg : Signedness) (s : State) : Host.Outcome State Fault Refusal :=
  match fromBridge sg s.limbCount s.request.bin with
  | some v => respond (.limbsFlag v true) s
  | none => respond (.limbsFlag (zeroVec s.limbCount) false) s

end Sys2Proof.Machine
end

