-- ==== Sys2Proof/Machine/Ordering.lean ====
section
/-! DEFINITION. The limb comparator (43_ordering.md): CMP, LT, LE, GT, GE, EQ. The comparison is the direct one (D9, C2):
it never subtracts. -/

namespace Sys2Proof.Machine

/-- The loop "most significant limb first" over limbs i−1 downto 0: the first limb that differs decides (R150). -/
def compareDown (a b : LimbVec) : Nat → Order
  | 0 => .equal
  | i + 1 =>
    if limb a i ≠ limb b i then (if (limb a i).toNat < (limb b i).toNat then .less else .greater)
    else compareDown a b i

/-- CMP(sg, A, B), the direct limb-level algorithm: differing sign bits decide first when `sg` = 1, "a negative value
is below a non-negative one" (R150). -/
def compareLimbs (sg : Signedness) (n : Nat) (a b : LimbVec) : Order :=
  match sg with
  | .unsigned => compareDown a b n
  | .signed =>
    if signbit n a ≠ signbit n b then (if signbit n a then .less else .greater)
    else compareDown a b n

/-- `flag` of EQ: A[i] = B[i] for every i in 0 .. N−1 (R155). -/
def equalLimbs (n : Nat) (a b : LimbVec) : Bool := (List.range n).all fun i => limb a i == limb b i

/-- The reference software's subtract-and-inspect method, "recorded and not implemented" (R157): no operation of the
block uses it; a host can build it from SUB and EQ. -/
def cmpRef (n : Nat) (a b : LimbVec) : Order :=
  if equalLimbs n (subLimbs n a b) (zeroVec n) then .equal
  else if signbit n (subLimbs n a b) then .less
  else .greater

/-- CMP (R150). -/
def execCmp (sg : Signedness) (s : State) : Host.Outcome State Fault Refusal :=
  respond (.order (compareLimbs sg s.limbCount (opA s) (opB s))) s

/-- LT (R151). -/
def execLt (sg : Signedness) (s : State) : Host.Outcome State Fault Refusal :=
  respond (.truth (flagLess (compareLimbs sg s.limbCount (opA s) (opB s)))) s

/-- LE (R152). -/
def execLe (sg : Signedness) (s : State) : Host.Outcome State Fault Refusal :=
  respond (.truth (flagNotGreater (compareLimbs sg s.limbCount (opA s) (opB s)))) s

/-- GT (R153). -/
def execGt (sg : Signedness) (s : State) : Host.Outcome State Fault Refusal :=
  respond (.truth (flagGreater (compareLimbs sg s.limbCount (opA s) (opB s)))) s

/-- GE (R154). -/
def execGe (sg : Signedness) (s : State) : Host.Outcome State Fault Refusal :=
  respond (.truth (flagNotLess (compareLimbs sg s.limbCount (opA s) (opB s)))) s

/-- EQ: does not depend on `sg` (R155). -/
def execEq (s : State) : Host.Outcome State Fault Refusal :=
  respond (.truth (equalLimbs s.limbCount (opA s) (opB s))) s

end Sys2Proof.Machine
end

