-- ==== Sys2Proof/Machine/Shift.lean ====
section
/-! DEFINITION. The cross-limb barrel shifter with sign extension (42_shift.md): SHL, SHR. The operations are defined
limb by limb (the gather form); the document's scatter form stands beside each, and that the two agree is stated in
Certificates/Slice0/Obligations.lean. -/

namespace Sys2Proof.Machine

/-- Limb j of a left shift by k limbs and s bits: "R[j] = 0 if j < k; R[k] = shl32(A[0], s); and for j > k,
R[j] = or32(shl32(A[j−k], s), (if s = 0 then 0 else shr32(A[j−k−1], 32 − s)))" (R132, R134). -/
def shlLimb (a : LimbVec) (k : Nat) (s : Fin 32) (j : Nat) : Limb :=
  if j < k then 0
  else if j = k then shl32 (limb a 0) s
  else if h : s = 0 then shl32 (limb a (j - k)) s
  else shl32 (limb a (j - k)) s ||| shr32 (limb a (j - k - 1)) (coDistance s h)

/-- LeftShift(value, amount), truncating (R132). -/
def shlLimbs (n : Nat) (a : LimbVec) (amt : BitVec 32) : LimbVec :=
  build n (shlLimb a (limbOffset amt) (bitOffset amt))

/-- The fill limb of a right shift: all-ones exactly when `sg` = 1 and signbit(A) = 1 (R131). -/
def shiftFill (sg : Signedness) (n : Nat) (a : LimbVec) : Limb :=
  match sg with
  | .signed => fillLimb (signbit n a)
  | .unsigned => 0

/-- `ext(i)`: A[i] for i ≤ N−1 and the fill for i ≥ N, "the operand continued upward by limbs of sign" (R131). -/
def ext (n : Nat) (a : LimbVec) (fill : Limb) (i : Nat) : Limb := if i < n then limb a i else fill

/-- Limb j of a right shift by k limbs and s bits (R133, R134). -/
def shrLimb (n : Nat) (a : LimbVec) (fill : Limb) (k : Nat) (s : Fin 32) (j : Nat) : Limb :=
  if h : s = 0 then ext n a fill (j + k)
  else shr32 (ext n a fill (j + k)) s ||| shl32 (ext n a fill (j + k + 1)) (coDistance s h)

/-- RightShift(value, amount): arithmetic when `sg` = 1, logical when `sg` = 0 (R133). -/
def shrLimbs (sg : Signedness) (n : Nat) (a : LimbVec) (amt : BitVec 32) : LimbVec :=
  build n (shrLimb n a (shiftFill sg n a) (limbOffset amt) (bitOffset amt))

/-- `R[j] <- or32(R[j], x)`, a contribution to limb j of the scratch result (R132, R133). -/
def orInto (r : LimbVec) (j : Nat) (x : Limb) : LimbVec := r.set j (limb r j ||| x)

/-- What source limb i contributes to the scratch result of a left shift (R132). -/
def scatterLeft (n : Nat) (a : LimbVec) (k : Nat) (s : Fin 32) (r : LimbVec) (i : Nat) : LimbVec :=
  let r1 := if i + k ≤ n - 1 then orInto r (i + k) (shl32 (limb a i) s) else r
  if h : s = 0 then r1
  else if i + k + 1 ≤ n - 1 then orInto r1 (i + k + 1) (shr32 (limb a i) (coDistance s h))
  else r1

/-- The document's scatter form of SHL, from a zeroed scratch result (R32, R132, D17). -/
def shlScatter (n : Nat) (a : LimbVec) (amt : BitVec 32) : LimbVec :=
  (List.range n).foldl (scatterLeft n a (limbOffset amt) (bitOffset amt)) (zeroVec n)

/-- What source limb i contributes to the scratch result of a right shift: "the structural shift" (R133). -/
def scatterRight (a : LimbVec) (k : Nat) (s : Fin 32) (r : LimbVec) (i : Nat) : LimbVec :=
  let r1 := if k ≤ i then orInto r (i - k) (shr32 (limb a i) s) else r
  if h : s = 0 then r1
  else if k + 1 ≤ i then orInto r1 (i - k - 1) (shl32 (limb a i) (coDistance s h))
  else r1

/-- "whole limbs that no source limb reached": limbs max(N−k, 0) .. N−1 take the fill (R133). -/
def fillWholeLimbs (n k : Nat) (fill : Limb) (r : LimbVec) : LimbVec :=
  build n fun j => if n - k ≤ j then fill else limb r j

/-- "the s vacated bits of the top populated limb", the step that 90_conflicts.md C1 adds (R133). -/
def fillVacatedBits (n k : Nat) (s : Fin 32) (fill : Limb) (r : LimbVec) : LimbVec :=
  if h : s = 0 then r
  else if k + 1 ≤ n then orInto r (n - k - 1) (shl32 fill (coDistance s h))
  else r

/-- The document's scatter form of SHR, with the step of 90_conflicts.md C1 (R133). -/
def shrScatter (sg : Signedness) (n : Nat) (a : LimbVec) (amt : BitVec 32) : LimbVec :=
  let k := limbOffset amt
  let s := bitOffset amt
  let fill := shiftFill sg n a
  let structural := (List.range n).foldl (scatterRight a k s) (zeroVec n)
  fillVacatedBits n k s fill (fillWholeLimbs n k fill structural)

/-- SHL: does not read `sg`, never signals (R132, R137). -/
def execShl (s : State) : Host.Outcome State Fault Refusal :=
  respond (.limbs (shlLimbs s.limbCount (opA s) s.request.amt)) s

/-- SHR (R133). -/
def execShr (sg : Signedness) (s : State) : Host.Outcome State Fault Refusal :=
  respond (.limbs (shrLimbs sg s.limbCount (opA s) s.request.amt)) s

end Sys2Proof.Machine
end

