-- ==== Sys2Proof/Machine/Dispatch.lean ====
section
/-! DEFINITION. The one dispatch over the 28 operations. An operation that does not read `sg` (R66) is not given it. -/

namespace Sys2Proof.Machine

def exec (i : Instr) (s : State) : Host.Outcome State Fault Refusal :=
  match i with
  | .fromLimbs _ => Sys2Proof.Machine.execFromLimbs s
  | .fromBytes _ => Sys2Proof.Machine.execFromBytes s
  | .toBytes _ => Sys2Proof.Machine.execToBytes s
  | .fromI32 _ => Sys2Proof.Machine.execFromI32 s
  | .fromU32 _ => Sys2Proof.Machine.execFromU32 s
  | .fromI64 _ => Sys2Proof.Machine.execFromI64 s
  | .fromU64 _ => Sys2Proof.Machine.execFromU64 s
  | .toBridge sg => Sys2Proof.Machine.execToBridge sg s
  | .fromBridge sg => Sys2Proof.Machine.execFromBridge sg s
  | .plus _ => Sys2Proof.Machine.execPlus s
  | .neg _ => Sys2Proof.Machine.execNeg s
  | .add _ => Sys2Proof.Machine.execAdd s
  | .sub _ => Sys2Proof.Machine.execSub s
  | .not _ => Sys2Proof.Machine.execNot s
  | .and _ => Sys2Proof.Machine.execAnd s
  | .or _ => Sys2Proof.Machine.execOr s
  | .xor _ => Sys2Proof.Machine.execXor s
  | .mul _ => Sys2Proof.Machine.execMul s
  | .div _ => Sys2Proof.Machine.execDiv s
  | .mod _ => Sys2Proof.Machine.execMod s
  | .shl _ => Sys2Proof.Machine.execShl s
  | .shr sg => Sys2Proof.Machine.execShr sg s
  | .cmp sg => Sys2Proof.Machine.execCmp sg s
  | .lt sg => Sys2Proof.Machine.execLt sg s
  | .le sg => Sys2Proof.Machine.execLe sg s
  | .gt sg => Sys2Proof.Machine.execGt sg s
  | .ge sg => Sys2Proof.Machine.execGe sg s
  | .eq _ => Sys2Proof.Machine.execEq s

end Sys2Proof.Machine
end

