-- ==== Sys2Proof/Machine/Step.lean ====
section
/-! DEFINITION. One step: the block answers the request in progress, in one atomic step (R48, R216), or waits. -/

namespace Sys2Proof.Machine

/-- One step. With a request in progress "first the command byte is decoded, and an illegal one raises ILLEGAL_REQUEST
without looking at anything else" (R197); a legal one is executed. With none, the block waits (log entry 3). -/
def step (s : State) : Host.Outcome State Fault Refusal :=
  match s.pending with
  | false => idle s
  | true =>
    match decode s.request.cmd with
    | .error e => rejectCommand e s
    | .ok i => exec i s

/-- The state in which the next step takes the command of a table word: the host has issued the request with that command
byte and the operand ports as they are, after the platform's reset where another request was being taken, since no move
changes the ports of that one (R52; log entry 4). -/
def State.withFetchWord (s : State) (nbits w : Nat) : State :=
  s.freed.taking { s.request with cmd := commandOfTableWord nbits w }

end Sys2Proof.Machine
end

