-- ==== Sys2Proof/Machine/HostMoves.lean ====
section
/-! DEFINITION. What the host may do to the block (70_reset_and_hazards.md, R217): issue a request, reset, run a
sequence of requests, use several instances, and the host's part of Parse and Format. The pseudo-operations of R72 are
here as the requests they expand to. The block itself has none of this. -/

namespace Sys2Proof.Machine

/-- The moves the host has on an instance: the rows of R217 in which it does something to the block. -/
inductive HostMove where
  | issue (r : Request)   -- "issue a request"
  | reset                 -- "the platform's reset"
  deriving DecidableEq, Repr

/-- The state after a move of the host; none where the host has no such move (R52, R217). -/
def State.move (s : State) : HostMove → Option State
  | .issue r => s.present r
  | .reset => some s.applyReset

/-- The response on the ports of an outcome, if any. -/
def responseOf : Host.Outcome State Fault Refusal → Option Response
  | .next t => t.response
  | .fault _ => none
  | .refused _ => none

/-- The response of an instance of width `w` to the request `r` issued alone, as the first one after reset (R51). -/
def answerAlone (w : Width) (r : Request) : Option Response :=
  ((State.resetOf w).present r).bind fun t => responseOf (step t)

/-- A run of the block: "a finite sequence of requests with their responses; it ends when the host stops issuing
requests" (R217). It begins in a state in which a request can be issued, and each request is issued when the one before
it has been answered. A fault or a refusal would end the run; no request raises one. -/
def serve (s : State) : List Request → List (Option Response)
  | [] => []
  | r :: rs =>
    match s.present r with
    | none => []
    | some p =>
      match step p with
      | .next t => t.response :: serve t rs
      | .fault _ => []
      | .refused _ => []

/-- Several instances, of the same or of different W; they "share nothing and have no identifiers" (R202). The request
`r` is issued to the one at place k of the list and answered; one that is taking another request stays as it is, since
the host has no such move (R52). Overlap in time is not modelled (log entry 14). -/
def issueTo (sys : List State) (k : Nat) (r : Request) : List State :=
  match sys[k]? with
  | none => sys
  | some s =>
    match s.present r with
    | none => sys
    | some p =>
      match step p with
      | .next t => sys.set k t
      | .fault _ => sys
      | .refused _ => sys

/-- The request for an operation on given operand ports (R71). -/
def Request.forInstr (i : Instr) (r : Request) : Request := { r with cmd := encode i }

/-- `mov vd, vs` is `fromlimbs vd, vs` (R72). -/
def Request.mov (n : Nat) (v : LimbVec) : Request :=
  Request.forInstr (.fromLimbs .unsigned) { Request.atReset n with A := v }

/-- `zero vd` is `fromu32 vd, 0` (R72). -/
def Request.zero (n : Nat) : Request := Request.forInstr (.fromU32 .unsigned) { Request.atReset n with nat := 0 }

/-- `one vd` is `fromu32 vd, 1` (R72). -/
def Request.one (n : Nat) : Request := Request.forInstr (.fromU32 .unsigned) { Request.atReset n with nat := 1 }

/-- `ne fd, va, vb` is no operation: the host "inverts the `flag` of `eq`" (R72). -/
def hostNe (w : Width) (a b : LimbVec) : Option Bool :=
  ((answerAlone w (Request.forInstr (.eq .unsigned) { Request.atReset w.limbs with A := a, B := b })).bind
    Response.flag).map fun f => !f

/-- The whole Parse contract, host and block together (R173): `parsed` is what the external decimal parser makes of the
text, `none` if it rejects it. It is an argument because no source defines it (R6, R175). -/
def hostParse (w : Width) (sg : Signedness) (parsed : Option ByteSeq) : Option (LimbVec × Bool) :=
  match parsed with
  | none => some (zeroVec w.limbs, false)
  | some b =>
    match answerAlone w (Request.forInstr (.fromBridge sg) { Request.atReset w.limbs with bin := b }) with
    | none => none
    | some r =>
      match r.R, r.flag with
      | some v, some f => some (v, f)
      | _, _ => none

/-- The bytes the host hands to the external formatter, the block's part of Format (R174). -/
def hostFormatBytes (w : Width) (sg : Signedness) (v : LimbVec) : Option ByteSeq :=
  (answerAlone w (Request.forInstr (.toBridge sg) { Request.atReset w.limbs with A := v })).bind Response.bout

end Sys2Proof.Machine
end

