-- ==== Sys2Proof/Safety.lean ====
section
/-! DEFINITION. What the claims call well formed: the ports of a state, and a response that writes exactly the ports of
a format or, when signalled, none. -/

namespace Sys2Proof.Machine

/-- Which operation formats raise which signal (R190): INVALID_ARGUMENT by FROMBYTES only, the one operation of format Y;
NOT_IMPLEMENTED by MUL, DIV and MOD only, the operations of format LX. ILLEGAL_REQUEST belongs to no operation. -/
def mayRaise : Format → Signal → Bool
  | .y, sig => sig == .invalidArgument
  | .lx, sig => sig == .notImplemented
  | .u, _ => false
  | .ub, _ => false
  | .l, _ => false
  | .lo, _ => false
  | .lf, _ => false
  | .s, _ => false
  | .n, _ => false
  | .yf, _ => false

/-- The result port `R` carries a value of n limbs. -/
def Response.hasR (n : Nat) (r : Response) : Bool :=
  match r.R with
  | some v => v.length == n
  | none => false

/-- The result ports `bolen` and `bout` carry 4·n or 4·n + 1 bytes (R27). -/
def Response.hasBytes (n : Nat) (r : Response) : Bool :=
  match r.bout with
  | some b => b.length == 4 * n || b.length == 4 * n + 1
  | none => false

/-- A response that fits a format on an n-limb instance: status OK with exactly the format's result ports written and of
the right size, or a signal that the format's operations raise, with no result port (R27, R62, R190, R198). -/
def Response.fits (n : Nat) (f : Format) (r : Response) : Bool :=
  match r.status with
  | .signalled sig => mayRaise f sig && r.R.isNone && r.ord.isNone && r.flag.isNone && r.bout.isNone
  | .ok =>
    match f with
    | .u => r.hasR n && r.ord.isNone && r.flag.isNone && r.bout.isNone
    | .l => r.hasR n && r.ord.isNone && r.flag.isNone && r.bout.isNone
    | .s => r.hasR n && r.ord.isNone && r.flag.isNone && r.bout.isNone
    | .n => r.hasR n && r.ord.isNone && r.flag.isNone && r.bout.isNone
    | .y => r.hasR n && r.ord.isNone && r.flag.isNone && r.bout.isNone
    | .yf => r.hasR n && r.ord.isNone && r.flag.isSome && r.bout.isNone
    | .ub => r.hasBytes n && r.R.isNone && r.ord.isNone && r.flag.isNone
    | .lo => r.ord.isSome && r.R.isNone && r.flag.isNone && r.bout.isNone
    | .lf => r.flag.isSome && r.R.isNone && r.ord.isNone && r.bout.isNone
    | .lx => false

/-- The response a command byte may get: one that fits its operation's format, or ILLEGAL_REQUEST alone for an illegal
byte (R62, R193). -/
def responseMatches (n : Nat) (cmd : Byte) (r : Response) : Bool :=
  match decode cmd with
  | .ok i => r.fits n i.format
  | .error _ => r == Response.signal .illegalRequest

/-- The ports of a state are consistent: the request ports have the sizes of the instance, and a response on the ports
writes the ports of some format only (R22, R26, R27, R190). -/
def State.wf (s : State) : Prop :=
  s.request.wf s.width.limbs ∧
    ∀ r, s.response = some r → r = Response.signal .illegalRequest ∨ ∃ i : Instr, r.fits s.width.limbs i.format = true

/-- The two command bytes of an operation: `op` with `sg` = 0 and `op + 0x80` with `sg` = 1 (R63). -/
def hasCommandBytes (op : Byte) (i : Signedness → Instr) : Prop :=
  decode op = .ok (i .unsigned) ∧ decode (op + 0x80) = .ok (i .signed)

/-- The flag an operation answers with in a state, if it answers with one. -/
def flagOf (i : Instr) (s : State) : Option Bool := (responseOf (exec i s)).bind Response.flag

/-- The limb vector an operation answers with in a state, if it answers with one. -/
def resultOf (i : Instr) (s : State) : Option LimbVec := (responseOf (exec i s)).bind Response.R

/-- The state with other limb vectors on `A` and `B`: a second state to compare with, no move of the host (R52). -/
def State.withAB (s : State) (a b : LimbVec) : State := { s with request := { s.request with A := a, B := b } }

/-- The state with another limb vector on `A` and another amount on `amt`: likewise no move of the host (R52). -/
def State.withShift (s : State) (a : LimbVec) (amt : BitVec 32) : State :=
  { s with request := { s.request with A := a, amt := amt } }

/-- Two requests agree on the ports that a format reads (R62). -/
def Request.agree (f : Format) (p q : Request) : Prop :=
  match f with
  | .u => p.A = q.A
  | .ub => p.A = q.A
  | .l => p.A = q.A ∧ p.B = q.B
  | .lx => True
  | .lo => p.A = q.A ∧ p.B = q.B
  | .lf => p.A = q.A ∧ p.B = q.B
  | .s => p.A = q.A ∧ p.amt = q.amt
  | .n => p.nat = q.nat
  | .y => p.bin = q.bin
  | .yf => p.bin = q.bin

/-- The numbers a type of n limbs holds: 0 .. 2^W − 1 unsigned, −2^(W−1) .. 2^(W−1) − 1 signed (R16). -/
def inRange (sg : Signedness) (n : Nat) (x : Int) : Prop :=
  match sg with
  | .unsigned => 0 ≤ x ∧ x < 2 ^ (32 * n)
  | .signed => -(2 ^ (32 * n - 1)) ≤ x ∧ x < 2 ^ (32 * n - 1)

/-- A canonical bridge sequence: "the shortest sequence with the right value" (R170). -/
def canonicalBytes (b : ByteSeq) : Prop := ∀ c : ByteSeq, bval c = bval b → b.length ≤ c.length

end Sys2Proof.Machine
end

