-- ==== Sys2Proof/Certificates/Slice0/Obligations.lean ====
section
/-! DEFINITION. The statements about the model, one per rule or group of rules of spec/. In all of them
`s.answered r` is `s` with the response `r` on its ports and no request in progress, so an equation
`exec i s = .next (s.answered r)` is completion, result and frame in one: the width and every request port stay as they
were, and a result port that `r` does not carry is `none`. -/

open Sys2Proof Sys2Proof.Machine

/-! Encoding. -/

/-- One or two command bytes of each family, written out from R61 and R63 as `sg`, `rsv`, `op`. -/
def Obligations.CommandBytesDecodeAsTheMapSays : Prop :=
  decode 0b0_0_000000#8 = .ok (.fromLimbs .unsigned) ∧ decode 0b1_0_000001#8 = .ok (.fromBytes .signed) ∧
  decode 0b0_0_000111#8 = .ok (.toBridge .unsigned) ∧ decode 0b1_0_001000#8 = .ok (.fromBridge .signed) ∧
  decode 0b0_0_010010#8 = .ok (.add .unsigned) ∧ decode 0b1_0_011000#8 = .ok (.mul .signed) ∧
  decode 0b0_0_100000#8 = .ok (.shl .unsigned) ∧ decode 0b1_0_100001#8 = .ok (.shr .signed) ∧
  decode 0b0_0_110000#8 = .ok (.cmp .unsigned) ∧ decode 0b1_0_110101#8 = .ok (.eq .signed)

/-- Every instruction is read back from its command byte, and every command byte that decodes is the one its instruction
encodes to: "each operation has exactly two command bytes" (R63). -/
def Obligations.DecodeAndEncodeAgreeOnCommandBytes : Prop :=
  (∀ i : Instr, decode (encode i) = .ok i) ∧ (∀ (b : Byte) (i : Instr), decode b = .ok i → encode i = b)

/-- R70: 56 command bytes decode to an operation and 200 do not. -/
def Obligations.FiftySixOfTheCommandBytesAreLegal : Prop :=
  ((List.range 256).filter fun b => match decode (BitVec.ofNat 8 b) with
    | .ok _ => true
    | .error _ => false).length = 56 ∧
  ((List.range 256).filter fun b => match decode (BitVec.ofNat 8 b) with
    | .ok _ => false
    | .error _ => true).length = 200

/-- R64: the packed port, read as an unsigned number, is val_u; limb i is its bits 32·i + 31 : 32·i; its top bit is the
sign bit. -/
def Obligations.PackedPortIsTheUnsignedValue : Prop :=
  ∀ (w : Width) (v : LimbVec), v.length = w.limbs →
    (packLimbs w.limbs v).toNat = valU v ∧
    (∀ i < w.limbs, (packLimbs w.limbs v).extractLsb' (32 * i) 32 = limb v i) ∧
    (packLimbs w.limbs v).getLsbD (w.bits - 1) = signbit w.limbs v

/-- The whole request survives the packing of its ports: for every instruction and every operand on every port, decoding
the encoded request gives the instruction and the operands back (R60, R63, R64, R65). -/
def Obligations.RequestSurvivesEncodingAndDecoding : Prop :=
  ∀ (w : Width) (i : Instr) (r : Request), r.wf w.limbs →
    decodeRequest w.limbs (encodeRequest w.limbs i r) = .ok (i, { r with cmd := encode i })

/-- R68: the codes of `status`, `ord` and `flag`, and that `ord` is "written only by CMP"; and the drawn response ports:
`packResponse` puts those codes on them, `R` packed as R64 says, and `bolen` and `bout` as R65 says. The last clause says
that on a response of the block nothing is lost: `R` reads as val_u and `bolen` as the number of bytes. -/
def Obligations.ResponsePortsCarryTheirCodes : Prop :=
  statusCode .ok = 0b00 ∧ statusCode (.signalled .invalidArgument) = 0b01 ∧
  statusCode (.signalled .notImplemented) = 0b10 ∧ statusCode (.signalled .illegalRequest) = 0b11 ∧
  orderCode .less = 0b11 ∧ orderCode .equal = 0b00 ∧ orderCode .greater = 0b01 ∧ (∀ o, orderCode o ≠ 0b10) ∧
  flagCode true = 1 ∧ flagCode false = 0 ∧
  (∀ (s : State) (i : Instr) (r : Response), responseOf (exec i s) = some r → r.ord ≠ none → ∃ sg, i = .cmp sg) ∧
  (∀ (n : Nat) (r : Response),
    (packResponse n r).status = statusCode r.status ∧ (packResponse n r).ord = r.ord.map orderCode ∧
    (packResponse n r).flag = r.flag.map flagCode ∧ (packResponse n r).R = r.R.map (packLimbs n) ∧
    (packResponse n r).bolen = r.bout.map (fun b => BitVec.ofNat 16 b.length) ∧ (packResponse n r).bout = r.bout) ∧
  (∀ (s : State) (i : Instr) (r : Response), responseOf (exec i s) = some r →
    (packResponse s.width.limbs r).R.map BitVec.toNat = r.R.map valU ∧
    (packResponse s.width.limbs r).bolen.map BitVec.toNat = r.bout.map List.length)

/-! The step. -/

/-- With a request in progress whose command byte decodes to an instruction, a step is that instruction. -/
def Obligations.StepExecutesTheDecodedInstruction : Prop :=
  ∀ (s : State) (i : Instr), s.pending = true → decode s.request.cmd = .ok i → step s = exec i s

/-- A table word placed by `withFetchWord` is the command of the very next step, and placing it is the host's issuing of a
request with that command byte and the operand ports as they are: in the state itself where no request is being taken,
else after the platform's reset, since no move changes the ports of a request being taken (R52). How a request comes to run
is log entry 4. -/
def Obligations.PlacedTableWordIsTheNextCommand : Prop :=
  ∀ (s : State) (w : Nat) (i : Instr), decodeTableWord 8 w = some i →
    step (s.withFetchWord 8 w) = exec i (s.withFetchWord 8 w) ∧
    s.freed.present { s.request with cmd := BitVec.ofNat 8 w } = some (s.withFetchWord 8 w) ∧
    (s.pending = false → s.freed = s) ∧ (s.pending = true → s.move .reset = some s.freed)

/-- With no request in progress a step changes nothing but the response ports, which carry no value any more. This is the
model's choice (log entry 3), not a rule of the spec. -/
def Obligations.StepWithoutRequestClearsResponse : Prop :=
  ∀ s : State, s.pending = false → step s = .next { s with response := none }

/-- R67, R193: a command byte with `rsv` = 1 or a reserved `op` is answered with ILLEGAL_REQUEST and no result, whatever
the operand ports hold; every other command byte decodes to an operation. -/
def Obligations.IllegalCommandIsAnsweredIllegalRequest : Prop :=
  (∀ s : State, s.pending = true →
    (s.request.cmd.getLsbD 6 = true ∨
      (let op := s.request.cmd.toNat % 64
       (0x09 ≤ op ∧ op ≤ 0x0F) ∨ (0x1B ≤ op ∧ op ≤ 0x1F) ∨ (0x22 ≤ op ∧ op ≤ 0x2F) ∨ 0x36 ≤ op)) →
    step s = .next (s.answered (.signal .illegalRequest))) ∧
  (∀ cmd : Byte, cmd.getLsbD 6 = false →
    (let op := cmd.toNat % 64
     ¬ ((0x09 ≤ op ∧ op ≤ 0x0F) ∨ (0x1B ≤ op ∧ op ≤ 0x1F) ∨ (0x22 ≤ op ∧ op ≤ 0x2F) ∨ 0x36 ≤ op)) →
    ∃ i : Instr, decode cmd = .ok i)

/-- "every request is answered after a finite time, with exactly one response" (R216): a request in progress is answered
by the next step, with a response that fits its command byte, and nothing but the progress bit and the response ports
changes. -/
def Obligations.EveryRequestGetsOneFittingResponse : Prop :=
  ∀ s : State, s.pending = true →
    ∃ r, step s = .next (s.answered r) ∧ responseMatches s.width.limbs s.request.cmd r = true

/-- A step never changes the instance parameter or a request port, and leaves no request in progress (R25, R31, R217). -/
def Obligations.StepChangesNeitherWidthNorRequestPorts : Prop :=
  ∀ s t : State, step s = .next t → t.width = s.width ∧ t.request = s.request ∧ t.pending = false

/-- The invariant: the request ports have the sizes of the instance, and a response on the ports carries exactly the ports
of a format, or a signal and none (R22, R26, R27, R198). Every step keeps it. -/
def Obligations.StepKeepsThePortsConsistent : Prop :=
  ∀ s t : State, s.wf → step s = .next t → t.wf

/-- The invariant of `StepKeepsThePortsConsistent` holds after reset, and the host's moves keep it. Where no request is
being taken any request can be issued; while one is, its ports hold: no request can be issued, the one move of the host is
the reset, which discards that request and leaves the request ports, and the next step answers the request that was issued
("a model has no such move", R52). That a bit says when a request is being taken, and that
issuing leaves the response ports as they are, are the model's choices (log entries 3 and 18). -/
def Obligations.ResetAndHostMovesMeetTheInvariant : Prop :=
  State.reset.wf ∧ (∀ w : Width, (State.resetOf w).wf) ∧ (∀ s : State, s.wf → s.applyReset.wf) ∧
  (∀ (s t : State) (r : Request), s.wf → r.wf s.width.limbs → s.present r = some t → t.wf) ∧
  (∀ (s : State) (r : Request), s.pending = false → ∃ t, s.move (.issue r) = some t ∧ t.request = r ∧
    t.pending = true ∧ t.width = s.width ∧ t.response = s.response) ∧
  (∀ (s t : State) (m : HostMove), s.pending = true → s.move m = some t →
    m = .reset ∧ t.request = s.request ∧ t.width = s.width ∧ t.pending = false ∧ t.response = none) ∧
  (∀ (s t : State) (r : Request), s.move (.issue r) = some t → ∃ q, answerAlone s.width r = some q ∧
    step t = .next (t.answered q))

/-- No run of the machine stops: from every state, any number of steps ends in a next state ("No operation blocks,
suspends, or has a cancellation/timeout contract", R53, R195, R199). -/
def Obligations.EveryRunReachesAState : Prop :=
  ∀ (k : Nat) (s : State), ∃ t, Host.Core.run Sys2Proof.core k s = .next t

/-- R190: exactly three signals, by whom and when each is raised, and no result with any of them. -/
def Obligations.SignalsAreRaisedExactlyByTheirCauses : Prop :=
  ∀ s : State, s.pending = true → ∃ r, step s = .next (s.answered r) ∧
    (r.status = .signalled .invalidArgument ↔
      ∃ sg, decode s.request.cmd = .ok (.fromBytes sg) ∧ s.request.blen ≠ 4 * s.width.limbs) ∧
    (r.status = .signalled .notImplemented ↔
      ∃ sg, decode s.request.cmd = .ok (.mul sg) ∨ decode s.request.cmd = .ok (.div sg) ∨
        decode s.request.cmd = .ok (.mod sg)) ∧
    (r.status = .signalled .illegalRequest ↔ ∃ e, decode s.request.cmd = .error e) ∧
    (r.status ≠ .ok → r.R = none ∧ r.ord = none ∧ r.flag = none ∧ r.bout = none)

/-- R195: every operation but FROMBYTES, MUL, DIV and MOD always answers OK. -/
def Obligations.AllOtherOperationsAlwaysAnswerOk : Prop :=
  ∀ (s : State) (i : Instr),
    (∀ sg, i ≠ .fromBytes sg ∧ i ≠ .mul sg ∧ i ≠ .div sg ∧ i ≠ .mod sg) →
    ∃ r, exec i s = .next (s.answered r) ∧ r.status = .ok

/-- R62: the response of an operation depends on the ports its format reads only, and carries the ports its format writes
only. -/
def Obligations.FormatFixesThePortsReadAndWritten : Prop :=
  ∀ (s t : State) (i : Instr), s.width = t.width → Request.agree i.format s.request t.request →
    ∃ r, responseOf (exec i s) = some r ∧ responseOf (exec i t) = some r ∧ r.fits s.width.limbs i.format = true

/-- R20: in a run of any number of requests, each gets the response it would get as the first one after reset. The run
begins where a request can be issued: where none is being taken, or after any step, whatever was being taken before it. The
request being taken in any state gets that response too, and every request gets one. -/
def Obligations.ResponsesOfARunAreThoseOfItsRequestsAlone : Prop :=
  (∀ (s : State) (rs : List Request), s.pending = false → serve s rs = rs.map (answerAlone s.width)) ∧
  (∀ (s t : State) (rs : List Request), step s = .next t → serve t rs = rs.map (answerAlone s.width)) ∧
  (∀ s : State, s.pending = true → responseOf (step s) = answerAlone s.width s.request) ∧
  (∀ (w : Width) (r : Request), ∃ q, answerAlone w r = some q)

/-- R51, R202: instances share nothing. A request to one is answered there as it would be alone, leaves every other as it
is, and requests to two different instances may be issued in either order. Requests that overlap in time are not modelled
(log entry 14). -/
def Obligations.InstancesShareNothing : Prop :=
  (∀ (sys : List State) (j : Nat) (p : Request) (s t : State), sys[j]? = some s → s.present p = some t →
    ∃ r, answerAlone s.width p = some r ∧ (issueTo sys j p)[j]? = some (t.answered r)) ∧
  (∀ (sys : List State) (j k : Nat) (p q : Request), j ≠ k →
    (issueTo sys j p)[k]? = sys[k]? ∧ issueTo (issueTo sys j p) k q = issueTo (issueTo sys k q) j p) ∧
  (∀ (sys : List State) (j : Nat) (p : Request) (s : State), sys[j]? = some s → s.pending = false →
    ∃ t, s.present p = some t ∧ t.request = p ∧ t.width = s.width)

/-- R66: the operations whose response depends on `sg` are exactly those eight. -/
def Obligations.SignednessMattersToExactlyEightOperations : Prop :=
  (∀ (i : Instr) (s : State), i.readsSg = false → ∀ sg, exec (i.withSg sg) s = exec i s) ∧
  (∀ (i : Instr) (w : Width), i.readsSg = true → ∃ s : State, s.width = w ∧ s.request.wf w.limbs ∧
    responseOf (exec (i.withSg .signed) s) ≠ responseOf (exec (i.withSg .unsigned) s)) ∧
  (∀ i : Instr, i.readsSg = true ↔ ∃ sg, i = .shr sg ∨ i = .cmp sg ∨ i = .lt sg ∨ i = .le sg ∨ i = .gt sg ∨
    i = .ge sg ∨ i = .toBridge sg ∨ i = .fromBridge sg)

/-- R210: after reset no request is in progress and the response ports carry no value; the platform's reset keeps the
width and discards a request being taken, which gets no response; the next request is answered as if alone. -/
def Obligations.ResetDiscardsTheRequestAndKeepsTheWidth : Prop :=
  (∀ w : Width, (State.resetOf w).width = w ∧ (State.resetOf w).pending = false ∧ (State.resetOf w).response = none) ∧
  (∀ s : State, s.applyReset.width = s.width ∧ s.applyReset.pending = false ∧ s.applyReset.response = none) ∧
  (∀ s t : State, step s.applyReset = .next t → t.response = none) ∧
  (∀ (s : State) (r : Request), ∃ t q, s.applyReset.present r = some t ∧ answerAlone s.width r = some q ∧
    step t = .next (t.answered q))

/-! Construction and marshalling. -/

/-- R80. -/
def Obligations.FromBytesBuildsTheLittleEndianValue : Prop :=
  hasCommandBytes 0x01 .fromBytes ∧
  ∀ (s : State) (sg : Signedness),
    (s.request.blen = 4 * s.width.limbs → ∃ v : LimbVec,
      exec (.fromBytes sg) s = .next (s.answered (.limbs v)) ∧ v.length = s.width.limbs ∧
      (∀ i < s.width.limbs, (limb v i).toNat =
        (s.request.bin.getD (4 * i) 0).toNat + (s.request.bin.getD (4 * i + 1) 0).toNat * 2 ^ 8 +
        (s.request.bin.getD (4 * i + 2) 0).toNat * 2 ^ 16 + (s.request.bin.getD (4 * i + 3) 0).toNat * 2 ^ 24) ∧
      valU v = valBytes s.request.bin) ∧
    (s.request.blen ≠ 4 * s.width.limbs →
      exec (.fromBytes sg) s = .next (s.answered (.signal .invalidArgument)))

/-- R81, R100: FROMLIMBS and PLUS answer with their operand. -/
def Obligations.FromLimbsAndPlusAreTheIdentity : Prop :=
  hasCommandBytes 0x00 .fromLimbs ∧ hasCommandBytes 0x10 .plus ∧
  ∀ (s : State) (sg : Signedness), s.request.A.length = s.width.limbs →
    exec (.fromLimbs sg) s = .next (s.answered (.limbs s.request.A)) ∧
    exec (.plus sg) s = .next (s.answered (.limbs s.request.A))

/-- R82, R83: the 32-bit constructors, by limbs and by value. -/
def Obligations.Native32IsExtendedAsItsSourceSays : Prop :=
  hasCommandBytes 0x03 .fromI32 ∧ hasCommandBytes 0x04 .fromU32 ∧
  ∀ (s : State) (sg : Signedness),
    let x : BitVec 32 := s.request.nat.extractLsb' 0 32
    (∃ v : LimbVec, exec (.fromI32 sg) s = .next (s.answered (.limbs v)) ∧ v.length = s.width.limbs ∧
      limb v 0 = x ∧ (∀ i < s.width.limbs, 1 ≤ i → limb v i = if x.msb then 0xFFFFFFFF else 0) ∧
      valS s.width.limbs v = x.toInt ∧ (valU v : Int) = x.toInt % 2 ^ s.width.bits) ∧
    (∃ v : LimbVec, exec (.fromU32 sg) s = .next (s.answered (.limbs v)) ∧ v.length = s.width.limbs ∧
      limb v 0 = x ∧ (∀ i < s.width.limbs, 1 ≤ i → limb v i = 0) ∧
      valU v = x.toNat ∧ valS s.width.limbs v = (x.toNat : Int))

/-- R84, R85: the 64-bit constructors, by limbs and by value. -/
def Obligations.Native64IsExtendedAsItsSourceSays : Prop :=
  hasCommandBytes 0x05 .fromI64 ∧ hasCommandBytes 0x06 .fromU64 ∧
  ∀ (s : State) (sg : Signedness),
    let x : BitVec 64 := s.request.nat
    (∃ v : LimbVec, exec (.fromI64 sg) s = .next (s.answered (.limbs v)) ∧ v.length = s.width.limbs ∧
      limb v 0 = x.extractLsb' 0 32 ∧ limb v 1 = x.extractLsb' 32 32 ∧
      (∀ i < s.width.limbs, 2 ≤ i → limb v i = if x.msb then 0xFFFFFFFF else 0) ∧
      valS s.width.limbs v = x.toInt ∧ (valU v : Int) = x.toInt % 2 ^ s.width.bits) ∧
    (∃ v : LimbVec, exec (.fromU64 sg) s = .next (s.answered (.limbs v)) ∧ v.length = s.width.limbs ∧
      limb v 0 = x.extractLsb' 0 32 ∧ limb v 1 = x.extractLsb' 32 32 ∧
      (∀ i < s.width.limbs, 2 ≤ i → limb v i = 0) ∧
      valU v = x.toNat ∧ valS s.width.limbs v = (x.toNat : Int))

/-- R87 (b), (c): the 32- and the 64-bit constructors agree on a native value extended to 64 bits, and the signed and the
unsigned constructors agree exactly when the sign bit of the native value is 0. -/
def Obligations.NativeConstructorsAgree : Prop :=
  ∀ (s t : State) (sg : Signedness), t.width = s.width →
    (t.request.nat = (s.request.nat.extractLsb' 0 32).signExtend 64 →
      resultOf (.fromI32 sg) s = resultOf (.fromI64 sg) t) ∧
    (t.request.nat = (s.request.nat.extractLsb' 0 32).setWidth 64 →
      resultOf (.fromU32 sg) s = resultOf (.fromU64 sg) t) ∧
    (resultOf (.fromI32 sg) s = resultOf (.fromU32 sg) s ↔ s.request.nat.getLsbD 31 = false) ∧
    (resultOf (.fromI64 sg) s = resultOf (.fromU64 sg) s ↔ s.request.nat.getLsbD 63 = false)

/-- R86: TOBYTES, byte by byte. -/
def Obligations.ToBytesDeliversTheLayout : Prop :=
  hasCommandBytes 0x02 .toBytes ∧
  ∀ (s : State) (sg : Signedness), ∃ b : ByteSeq,
    exec (.toBytes sg) s = .next (s.answered (.bytes b)) ∧ b.length = 4 * s.width.limbs ∧
    (∀ i < s.width.limbs, ∀ j < 4, b[4 * i + j]? = some ((limb s.request.A i).extractLsb' (8 * j) 8))

/-- R49: FROMBYTES of the bytes TOBYTES delivers gives the value back. -/
def Obligations.BytesRoundTripRestoresTheValue : Prop :=
  ∀ (s t : State) (sg sg' : Signedness), s.request.A.length = s.width.limbs → t.width = s.width →
    responseOf (exec (.toBytes sg) s) = some (.bytes t.request.bin) →
    exec (.fromBytes sg') t = .next (t.answered (.limbs s.request.A))

/-- The converse round trip, which R49 marks as its own inference: TOBYTES of the value FROMBYTES builds gives the bytes
back. -/
def Obligations.ConstructedBytesAreRenderedBack : Prop :=
  ∀ (s t : State) (sg sg' : Signedness), s.request.blen = 4 * s.width.limbs → t.width = s.width →
    resultOf (.fromBytes sg) s = some t.request.A →
    exec (.toBytes sg') t = .next (t.answered (.bytes s.request.bin))

/-! The arithmetic engine. -/

/-- R101: NEG is NOT followed by the addition of One, with the corner cases of the rule. -/
def Obligations.NegIsComplementPlusOne : Prop :=
  hasCommandBytes 0x11 .neg ∧
  ∀ (s : State) (sg : Signedness), s.request.A.length = s.width.limbs → ∃ u v : LimbVec,
    exec (.neg sg) s = .next (s.answered (.limbs v)) ∧ v.length = s.width.limbs ∧
    resultOf (.not sg) s = some u ∧ resultOf (.add sg) (s.withAB u (oneVec s.width.limbs)) = some v ∧
    (s.request.A = zeroVec s.width.limbs → v = zeroVec s.width.limbs) ∧
    (s.request.A = minS s.width.limbs → v = minS s.width.limbs) ∧
    (s.request.A = oneVec s.width.limbs → v = maxU s.width.limbs)

/-- R102: ripple carry from a carry of 0, with the corner cases of the rule. -/
def Obligations.AddIsRippleCarry : Prop :=
  hasCommandBytes 0x12 .add ∧
  ∀ (s : State) (sg : Signedness), s.request.wf s.width.limbs → ∃ (v : LimbVec) (carry : Nat → Nat),
    exec (.add sg) s = .next (s.answered (.limbs v)) ∧ v.length = s.width.limbs ∧
    carry 0 = 0 ∧
    (∀ i < s.width.limbs,
      (limb v i).toNat = (carry i + (limb s.request.A i).toNat + (limb s.request.B i).toNat) % 2 ^ 32 ∧
      carry (i + 1) = (carry i + (limb s.request.A i).toNat + (limb s.request.B i).toNat) / 2 ^ 32 ∧
      carry (i + 1) ≤ 1) ∧
    (s.request.A = maxU s.width.limbs → s.request.B = oneVec s.width.limbs → v = zeroVec s.width.limbs) ∧
    (s.request.A = maxS s.width.limbs → s.request.B = oneVec s.width.limbs → v = minS s.width.limbs) ∧
    (s.request.A = minS s.width.limbs → s.request.B = minS s.width.limbs → v = zeroVec s.width.limbs)

/-- R103: subtraction is addition of the negation, with the corner cases of the rule. -/
def Obligations.SubIsAdditionOfTheNegation : Prop :=
  hasCommandBytes 0x13 .sub ∧
  ∀ (s : State) (sg : Signedness), s.request.wf s.width.limbs → ∃ u v : LimbVec,
    exec (.sub sg) s = .next (s.answered (.limbs v)) ∧ v.length = s.width.limbs ∧
    resultOf (.neg sg) (s.withAB s.request.B s.request.B) = some u ∧
    resultOf (.add sg) (s.withAB s.request.A u) = some v ∧
    (s.request.A = s.request.B → v = zeroVec s.width.limbs) ∧
    (s.request.B = zeroVec s.width.limbs → v = s.request.A) ∧
    (s.request.A = zeroVec s.width.limbs → s.request.B = oneVec s.width.limbs → v = maxU s.width.limbs) ∧
    (s.request.A = minS s.width.limbs → s.request.B = oneVec s.width.limbs → v = maxS s.width.limbs) ∧
    (s.request.B = minS s.width.limbs → resultOf (.add sg) s = some v)

/-- R104: NOT, limb by limb, and NOT(NOT(A)) = A. -/
def Obligations.NotComplementsEveryLimb : Prop :=
  hasCommandBytes 0x14 .not ∧
  ∀ (s : State) (sg : Signedness), s.request.A.length = s.width.limbs → ∃ v : LimbVec,
    exec (.not sg) s = .next (s.answered (.limbs v)) ∧ v.length = s.width.limbs ∧
    (∀ i < s.width.limbs, (limb v i).toNat = 2 ^ 32 - 1 - (limb s.request.A i).toNat) ∧
    resultOf (.not sg) (s.withAB v s.request.B) = some s.request.A

/-- R105, R106, R107: the bitwise operations, limb by limb. -/
def Obligations.AndOrXorWorkLimbByLimb : Prop :=
  hasCommandBytes 0x15 .and ∧ hasCommandBytes 0x16 .or ∧ hasCommandBytes 0x17 .xor ∧
  ∀ (s : State) (sg : Signedness),
    (∃ v : LimbVec, exec (.and sg) s = .next (s.answered (.limbs v)) ∧ v.length = s.width.limbs ∧
      ∀ i < s.width.limbs, limb v i = limb s.request.A i &&& limb s.request.B i) ∧
    (∃ v : LimbVec, exec (.or sg) s = .next (s.answered (.limbs v)) ∧ v.length = s.width.limbs ∧
      ∀ i < s.width.limbs, limb v i = limb s.request.A i ||| limb s.request.B i) ∧
    (∃ v : LimbVec, exec (.xor sg) s = .next (s.answered (.limbs v)) ∧ v.length = s.width.limbs ∧
      ∀ i < s.width.limbs, limb v i = limb s.request.A i ^^^ limb s.request.B i)

/-- R108, R109, R110: MUL, DIV and MOD signal NOT_IMPLEMENTED on every request and deliver no result. That signal is the
operations' own effect. -/
def Obligations.MulDivModSignalNotImplemented : Prop :=
  hasCommandBytes 0x18 .mul ∧ hasCommandBytes 0x19 .div ∧ hasCommandBytes 0x1A .mod ∧
  ∀ (s : State) (sg : Signedness),
    exec (.mul sg) s = .next (s.answered (.signal .notImplemented)) ∧
    exec (.div sg) s = .next (s.answered (.signal .notImplemented)) ∧
    exec (.mod sg) s = .next (s.answered (.signal .notImplemented))

/-- The value laws that R101 to R104 mark as their own inference, and the one-pass form of SUB that R103 marks so. -/
def Obligations.ArithmeticValueLawsHold : Prop :=
  ∀ (s : State) (sg : Signedness), s.request.wf s.width.limbs → ∃ add sub neg not : LimbVec,
    resultOf (.add sg) s = some add ∧ resultOf (.sub sg) s = some sub ∧ resultOf (.neg sg) s = some neg ∧
    resultOf (.not sg) s = some not ∧
    valU add = (valU s.request.A + valU s.request.B) % 2 ^ s.width.bits ∧
    add = limbsOf s.width.limbs (valS s.width.limbs s.request.A + valS s.width.limbs s.request.B) ∧
    (valU sub : Int) = ((valU s.request.A : Int) - (valU s.request.B : Int)) % 2 ^ s.width.bits ∧
    sub = subOnePass s.width.limbs s.request.A s.request.B ∧
    valU neg = (2 ^ s.width.bits - valU s.request.A) % 2 ^ s.width.bits ∧
    (s.request.A ≠ minS s.width.limbs → valS s.width.limbs neg = -valS s.width.limbs s.request.A) ∧
    valU not = 2 ^ s.width.bits - 1 - valU s.request.A ∧
    valS s.width.limbs not = -valS s.width.limbs s.request.A - 1

/-- R111: the laws the document states, as requests, its wraparound example among them. -/
def Obligations.TwosComplementLawsHold : Prop :=
  ∀ (s : State) (sg : Signedness), s.request.A.length = s.width.limbs →
    (∀ u, resultOf (.neg sg) s = some u →
      resultOf (.neg sg) (s.withAB u s.request.B) = some s.request.A ∧
      resultOf (.add sg) (s.withAB s.request.A u) = some (zeroVec s.width.limbs)) ∧
    (∀ u, resultOf (.not sg) s = some u →
      resultOf (.add sg) (s.withAB u (oneVec s.width.limbs)) = resultOf (.neg sg) s) ∧
    resultOf (.add sg) (s.withAB s.request.A (zeroVec s.width.limbs)) = some s.request.A ∧
    resultOf (.add sg) (s.withAB (oneVec s.width.limbs) (maxU s.width.limbs)) = some (zeroVec s.width.limbs) ∧
    (∃ u, resultOf (.neg sg) s = some u) ∧ (∃ u, resultOf (.not sg) s = some u)

/-! The shift engine. -/

/-- R132: SHL is the document's scatter algorithm: each source limb contributes its low part to limb i + k and, when
s > 0, its high part to limb i + k + 1 of a zeroed scratch result, contributions at or above N being dropped. -/
def Obligations.ShlFollowsTheScatterAlgorithm : Prop :=
  hasCommandBytes 0x20 .shl ∧
  ∀ (s : State) (sg : Signedness), s.request.A.length = s.width.limbs →
    exec (.shl sg) s = .next (s.answered (.limbs (shlScatter s.width.limbs s.request.A s.request.amt)))

/-- The limb form and the value law of SHL, which R132 marks as its own inference. -/
def Obligations.ShlLimbFormAndValueLawHold : Prop :=
  ∀ (s : State) (sg : Signedness), s.request.A.length = s.width.limbs →
    let k := s.request.amt.toNat / 32
    let b := s.request.amt.toNat % 32
    ∃ v : LimbVec, exec (.shl sg) s = .next (s.answered (.limbs v)) ∧ v.length = s.width.limbs ∧
      (∀ j < s.width.limbs, limb v j =
        if j < k then 0
        else if j = k then limb s.request.A 0 <<< b
        else (limb s.request.A (j - k) <<< b) ||| (if b = 0 then 0 else limb s.request.A (j - k - 1) >>> (32 - b))) ∧
      valU v = (valU s.request.A * 2 ^ s.request.amt.toNat) % 2 ^ s.width.bits

/-- R131, R133: the fill, the normative limb form and the scatter form of SHR, the latter with the step of
90_conflicts.md C1, and exactly when the two readings differ. -/
def Obligations.ShrFollowsItsLimbAndScatterForms : Prop :=
  hasCommandBytes 0x21 .shr ∧
  ∀ (s : State), s.request.A.length = s.width.limbs →
    (∀ sg : Signedness,
      let k := s.request.amt.toNat / 32
      let b := s.request.amt.toNat % 32
      let fill : Limb := if sg = .signed ∧ signbit s.width.limbs s.request.A = true then 0xFFFFFFFF else 0
      let ext : Nat → Limb := fun i => if i < s.width.limbs then limb s.request.A i else fill
      ∃ v : LimbVec, exec (.shr sg) s = .next (s.answered (.limbs v)) ∧ v.length = s.width.limbs ∧
        (∀ j < s.width.limbs, limb v j =
          if b = 0 then ext (j + k) else (ext (j + k) >>> b) ||| (ext (j + k + 1) <<< (32 - b))) ∧
        v = shrScatter sg s.width.limbs s.request.A s.request.amt) ∧
    (exec (.shr .signed) s ≠ exec (.shr .unsigned) s ↔
      signbit s.width.limbs s.request.A = true ∧ 0 < s.request.amt.toNat)

/-- The value law of SHR, which R133 marks as its own inference: division by a power of two, rounded down. -/
def Obligations.ShrValueLawHolds : Prop :=
  ∀ (s : State) (sg : Signedness), s.request.A.length = s.width.limbs →
    exec (.shr sg) s = .next (s.answered
      (.limbs (limbsOf s.width.limbs (val sg s.width.limbs s.request.A / 2 ^ s.request.amt.toNat))))

/-- R135: amounts of the width or more. -/
def Obligations.ShiftsByTheWidthOrMoreLeaveTheFill : Prop :=
  ∀ (s : State), s.width.bits ≤ s.request.amt.toNat →
    (∀ sg, exec (.shl sg) s = .next (s.answered (.limbs (zeroVec s.width.limbs)))) ∧
    exec (.shr .unsigned) s = .next (s.answered (.limbs (zeroVec s.width.limbs))) ∧
    exec (.shr .signed) s = .next (s.answered (.limbs
      (if signbit s.width.limbs s.request.A then maxU s.width.limbs else zeroVec s.width.limbs)))

/-- R136: shift identity, composition of left shifts within the width, and that a left shift followed by a right shift need
not restore the operand. -/
def Obligations.ShiftLawsOfTheDocumentHold : Prop :=
  ∀ (s : State) (sg : Signedness) (v : LimbVec), v.length = s.width.limbs →
    resultOf (.shl sg) (s.withShift v 0) = some v ∧ resultOf (.shr sg) (s.withShift v 0) = some v ∧
    (∀ (a b : BitVec 32), a.toNat + b.toNat ≤ s.width.bits →
      ∃ u, resultOf (.shl sg) (s.withShift v a) = some u ∧
        resultOf (.shl sg) (s.withShift u b) = resultOf (.shl sg) (s.withShift v (a + b))) ∧
    (∃ (z : LimbVec) (a : BitVec 32) (u : LimbVec), z.length = s.width.limbs ∧
      resultOf (.shl sg) (s.withShift z a) = some u ∧ resultOf (.shr sg) (s.withShift u a) ≠ some z)

/-- What R136 marks as its own inference: the composition of left shifts whenever the sum of the amounts is an amount, and
the mirror law of right shifts under one `sg`. -/
def Obligations.ShiftsComposeUpToTheAmountLimit : Prop :=
  ∀ (s : State) (sg : Signedness) (v : LimbVec), v.length = s.width.limbs →
    ∀ (a b : BitVec 32), a.toNat + b.toNat < 2 ^ 32 →
      (∃ u, resultOf (.shl sg) (s.withShift v a) = some u ∧
        resultOf (.shl sg) (s.withShift u b) = resultOf (.shl sg) (s.withShift v (a + b))) ∧
      (∃ u, resultOf (.shr sg) (s.withShift v a) = some u ∧
        resultOf (.shr sg) (s.withShift u b) = resultOf (.shr sg) (s.withShift v (a + b)))

/-! The comparator. -/

/-- R150: CMP is the order of the numeric values under the reading `sg` selects. -/
def Obligations.CmpIsTheOrderOfTheValues : Prop :=
  hasCommandBytes 0x30 .cmp ∧
  ∀ (s : State) (sg : Signedness), s.request.wf s.width.limbs →
    let x := val sg s.width.limbs s.request.A
    let y := val sg s.width.limbs s.request.B
    exec (.cmp sg) s =
      .next (s.answered (.order (if x < y then .less else if x = y then .equal else .greater)))

/-- R151 to R154: the four relational operators, derived from CMP, and what they say of the values. -/
def Obligations.RelationalOperatorsDeriveFromCmp : Prop :=
  hasCommandBytes 0x31 .lt ∧ hasCommandBytes 0x32 .le ∧ hasCommandBytes 0x33 .gt ∧ hasCommandBytes 0x34 .ge ∧
  ∀ (s : State) (sg : Signedness), s.request.wf s.width.limbs →
    let x := val sg s.width.limbs s.request.A
    let y := val sg s.width.limbs s.request.B
    (∃ o, exec (.cmp sg) s = .next (s.answered (.order o)) ∧
      exec (.lt sg) s = .next (s.answered (.truth (o == .less))) ∧
      exec (.le sg) s = .next (s.answered (.truth (o != .greater))) ∧
      exec (.gt sg) s = .next (s.answered (.truth (o == .greater))) ∧
      exec (.ge sg) s = .next (s.answered (.truth (o != .less)))) ∧
    exec (.lt sg) s = .next (s.answered (.truth (decide (x < y)))) ∧
    exec (.le sg) s = .next (s.answered (.truth (decide (x ≤ y)))) ∧
    exec (.gt sg) s = .next (s.answered (.truth (decide (x > y)))) ∧
    exec (.ge sg) s = .next (s.answered (.truth (decide (x ≥ y))))

/-- R155: EQ answers 1 exactly when the limb vectors are equal, with either `sg`. -/
def Obligations.EqHoldsOfEqualVectorsOnly : Prop :=
  hasCommandBytes 0x35 .eq ∧
  ∀ (s : State) (sg : Signedness), s.request.wf s.width.limbs →
    exec (.eq sg) s = .next (s.answered (.truth (decide (s.request.A = s.request.B)))) ∧
    (flagOf (.eq sg) s = some true ↔ ∀ i < s.width.limbs, limb s.request.A i = limb s.request.B i)

/-- What R155 marks as its own inference: EQ is the same as CMP = EQUAL under either `sg` and as SUB = Zero. -/
def Obligations.EqAgreesWithCmpAndSub : Prop :=
  ∀ (s : State) (sg sg' : Signedness), s.request.wf s.width.limbs →
    (flagOf (.eq sg) s = some true ↔ responseOf (exec (.cmp sg') s) = some (.order .equal)) ∧
    (flagOf (.eq sg) s = some true ↔ resultOf (.sub sg) s = some (zeroVec s.width.limbs))

/-- R156: for each fixed `sg`, a strict total order consistent with all the operators. -/
def Obligations.OrderingIsAStrictTotalOrder : Prop :=
  ∀ (s : State) (sg : Signedness) (a b c : LimbVec),
    a.length = s.width.limbs → b.length = s.width.limbs → c.length = s.width.limbs →
    ((flagOf (.lt sg) (s.withAB a b) = some true ∧ flagOf (.eq sg) (s.withAB a b) = some false ∧
        flagOf (.gt sg) (s.withAB a b) = some false) ∨
      (flagOf (.lt sg) (s.withAB a b) = some false ∧ flagOf (.eq sg) (s.withAB a b) = some true ∧
        flagOf (.gt sg) (s.withAB a b) = some false) ∨
      (flagOf (.lt sg) (s.withAB a b) = some false ∧ flagOf (.eq sg) (s.withAB a b) = some false ∧
        flagOf (.gt sg) (s.withAB a b) = some true)) ∧
    flagOf (.lt sg) (s.withAB a a) = some false ∧
    (flagOf (.lt sg) (s.withAB a b) = some true → flagOf (.lt sg) (s.withAB b c) = some true →
      flagOf (.lt sg) (s.withAB a c) = some true) ∧
    (responseOf (exec (.cmp sg) (s.withAB a b)) = some (.order .less) ↔
      responseOf (exec (.cmp sg) (s.withAB b a)) = some (.order .greater)) ∧
    flagOf (.le sg) (s.withAB a b) = (flagOf (.gt sg) (s.withAB a b)).map Bool.not ∧
    flagOf (.ge sg) (s.withAB a b) = (flagOf (.lt sg) (s.withAB a b)).map Bool.not

/-- R157: the reference method, which no operation uses, differs from CMP exactly when the true difference is not
representable, then gives the opposite order, and is no total order. -/
def Obligations.ReferenceComparisonErrsExactlyOnOverflow : Prop :=
  ∀ (w : Width) (a b : LimbVec), a.length = w.limbs → b.length = w.limbs →
    (cmpRef w.limbs a b ≠ compareLimbs .signed w.limbs a b ↔
      ¬ inRange .signed w.limbs (valS w.limbs a - valS w.limbs b)) ∧
    (¬ inRange .signed w.limbs (valS w.limbs a - valS w.limbs b) →
      cmpRef w.limbs a b = if valS w.limbs a < valS w.limbs b then .greater else .less) ∧
    (let x := zeroVec w.limbs
     let y := build w.limbs fun _ => 0x55555555
     let z := build w.limbs fun _ => 0xAAAAAAAA
     cmpRef w.limbs y x = .greater ∧ cmpRef w.limbs z y = .greater ∧ cmpRef w.limbs x z = .greater)

/-! The conversion bridge. -/

/-- R171: the bridge sequence of a value, byte by byte. -/
def Obligations.ToBridgeAppendsTheDisambiguatingZero : Prop :=
  hasCommandBytes 0x07 .toBridge ∧
  ∀ (s : State) (sg : Signedness), s.request.A.length = s.width.limbs →
    let long := sg = .unsigned ∧ signbit s.width.limbs s.request.A = true
    ∃ b : ByteSeq, exec (.toBridge sg) s = .next (s.answered (.bytes b)) ∧
      (∀ i < s.width.limbs, ∀ j < 4, b[4 * i + j]? = some ((limb s.request.A i).extractLsb' (8 * j) 8)) ∧
      (long → b.length = 4 * s.width.limbs + 1 ∧ b[4 * s.width.limbs]? = some 0) ∧
      (¬ long → b.length = 4 * s.width.limbs)

/-- R172: the two shapes FROMBRIDGE accepts, the limbs it then builds from the bytes and the sign pad, and Zero with
flag 0 on every other sequence. -/
def Obligations.FromBridgeBuildsTheValueOrFailsWithZero : Prop :=
  hasCommandBytes 0x08 .fromBridge ∧
  ∀ (s : State) (sg : Signedness),
    let b := s.request.bin
    let n := s.width.limbs
    let negative := 1 ≤ b.length ∧ (b.getD (b.length - 1) 0).getLsbD 7 = true
    let byte : Nat → Byte := fun m => if m < b.length then b.getD m 0 else if negative then 0xFF else 0x00
    let succeeds := (b.length ≤ 4 * n ∧ ¬ (sg = .unsigned ∧ negative)) ∨
      (sg = .unsigned ∧ b.length = 4 * n + 1 ∧ b[4 * n]? = some 0 ∧ (b.getD (4 * n - 1) 0).getLsbD 7 = true)
    (succeeds → ∃ v : LimbVec, exec (.fromBridge sg) s = .next (s.answered (.limbsFlag v true)) ∧ v.length = n ∧
      ∀ i < n, (limb v i).toNat = (byte (4 * i)).toNat + (byte (4 * i + 1)).toNat * 2 ^ 8 +
        (byte (4 * i + 2)).toNat * 2 ^ 16 + (byte (4 * i + 3)).toNat * 2 ^ 24) ∧
    (¬ succeeds → exec (.fromBridge sg) s = .next (s.answered (.limbsFlag (zeroVec n) false)))

/-- The value laws that R171 and R172 mark as their own inference: TOBRIDGE delivers the number of its operand; FROMBRIDGE
answers 1 exactly when the number is representable and the sequence no longer than the rule admits, and then delivers
that number. -/
def Obligations.BridgeValueLawsHold : Prop :=
  ∀ (s : State) (sg : Signedness), s.request.A.length = s.width.limbs →
    let b := s.request.bin
    let n := s.width.limbs
    (∃ c : ByteSeq, responseOf (exec (.toBridge sg) s) = some (.bytes c) ∧ bval c = val sg n s.request.A) ∧
    (flagOf (.fromBridge sg) s = some true ↔ inRange sg n (bval b) ∧
      (b.length ≤ 4 * n ∨ (sg = .unsigned ∧ b.length = 4 * n + 1 ∧ 2 ^ (s.width.bits - 1) ≤ bval b))) ∧
    (flagOf (.fromBridge sg) s = some true →
      ∃ v, resultOf (.fromBridge sg) s = some v ∧ val sg n v = bval b)

/-- R172, its own inference: "for canonical input flag = 1 exactly when the number fits the type". -/
def Obligations.CanonicalSequenceParsesExactlyWhenItFits : Prop :=
  ∀ (s : State) (sg : Signedness), canonicalBytes s.request.bin →
    (flagOf (.fromBridge sg) s = some true ↔ inRange sg s.width.limbs (bval s.request.bin))

/-- R172: FROMBRIDGE of the output of TOBRIDGE under the same `sg` gives the value back with flag 1. -/
def Obligations.BridgeRoundTripRestoresTheValue : Prop :=
  ∀ (s t : State) (sg : Signedness), s.request.A.length = s.width.limbs → t.width = s.width →
    responseOf (exec (.toBridge sg) s) = some (.bytes t.request.bin) →
    exec (.fromBridge sg) t = .next (t.answered (.limbsFlag s.request.A true))

/-- R173, R174: the host and the block together, for any external parser: a rejected text gives (Zero, false), and an
accepted one gives what FROMBRIDGE answers to the parser's bytes, (Zero, false) when it fails and the number when it
succeeds; what is handed to the formatter is what TOBRIDGE answers, the value's number, and it parses back. -/
def Obligations.ParseAndFormatContractsHold : Prop :=
  ∀ (w : Width) (sg : Signedness),
    hostParse w sg none = some (zeroVec w.limbs, false) ∧
    (∀ b : ByteSeq, ∃ (v : LimbVec) (f : Bool), hostParse w sg (some b) = some (v, f) ∧
      (∀ s : State, s.width = w → s.request.bin = b →
        exec (.fromBridge sg) s = .next (s.answered (.limbsFlag v f))) ∧
      (f = false → v = zeroVec w.limbs) ∧ (f = true → val sg w.limbs v = bval b)) ∧
    (∀ v : LimbVec, v.length = w.limbs → ∃ b : ByteSeq, hostFormatBytes w sg v = some b ∧
      (∀ s : State, s.width = w → s.request.A = v → exec (.toBridge sg) s = .next (s.answered (.bytes b))) ∧
      bval b = val sg w.limbs v ∧ hostParse w sg (some b) = some (v, true))

/-! Values and constants. -/

/-- R16, R22: val_u is a bijection from the limb vectors of an instance onto 0 .. 2^W − 1, and `limbs(x)` inverts val_u
and val_s on their ranges. -/
def Obligations.LimbVectorsAreTheNumbersBelowTwoToTheW : Prop :=
  ∀ w : Width,
    (∀ v : LimbVec, v.length = w.limbs → valU v < 2 ^ w.bits) ∧
    (∀ u v : LimbVec, u.length = w.limbs → v.length = w.limbs → valU u = valU v → u = v) ∧
    (∀ x : Nat, x < 2 ^ w.bits → (limbsOf w.limbs x).length = w.limbs ∧ valU (limbsOf w.limbs x) = x) ∧
    (∀ x : Int, -(2 ^ (w.bits - 1)) ≤ x → x < 2 ^ (w.bits - 1) → valS w.limbs (limbsOf w.limbs x) = x)

/-- R33, R34: the named constants, by limbs and by value. -/
def Obligations.NamedConstantsHaveTheirValues : Prop :=
  ∀ w : Width,
    (∀ i < w.limbs, limb (zeroVec w.limbs) i = 0 ∧ limb (oneVec w.limbs) i = (if i = 0 then 1 else 0) ∧
      limb (maxU w.limbs) i = 0xFFFFFFFF ∧
      limb (maxS w.limbs) i = (if i = w.limbs - 1 then 0x7FFFFFFF else 0xFFFFFFFF) ∧
      limb (minS w.limbs) i = (if i = w.limbs - 1 then 0x80000000 else 0)) ∧
    valU (zeroVec w.limbs) = 0 ∧ valS w.limbs (zeroVec w.limbs) = 0 ∧
    valU (oneVec w.limbs) = 1 ∧ valS w.limbs (oneVec w.limbs) = 1 ∧
    valU (maxU w.limbs) = 2 ^ w.bits - 1 ∧ valS w.limbs (maxS w.limbs) = 2 ^ (w.bits - 1) - 1 ∧
    valS w.limbs (minS w.limbs) = -(2 ^ (w.bits - 1))

/-- R72: what the pseudo-operations answer, and the host's inversion of EQ. -/
def Obligations.PseudoOperationsHaveTheirEffect : Prop :=
  ∀ (w : Width) (u v : LimbVec), u.length = w.limbs → v.length = w.limbs →
    answerAlone w (Request.mov w.limbs v) = some (.limbs v) ∧
    answerAlone w (Request.zero w.limbs) = some (.limbs (zeroVec w.limbs)) ∧
    answerAlone w (Request.one w.limbs) = some (.limbs (oneVec w.limbs)) ∧
    hostNe w u v = some (decide (u ≠ v))
end

