-- ==== Sys2Proof/Laws/State.lean ====
section
/-! SUPPORT. One lemma per field per update of the state, and what the shared operations answer. -/

namespace Sys2Proof.Machine

@[simp] theorem answered_width (s : State) (r : Response) : (s.answered r).width = s.width := rfl
@[simp] theorem answered_request (s : State) (r : Response) : (s.answered r).request = s.request := rfl
@[simp] theorem answered_pending (s : State) (r : Response) : (s.answered r).pending = false := rfl
@[simp] theorem answered_response (s : State) (r : Response) : (s.answered r).response = some r := rfl

@[simp] theorem taking_width (s : State) (r : Request) : (s.taking r).width = s.width := rfl
@[simp] theorem taking_request (s : State) (r : Request) : (s.taking r).request = r := rfl
@[simp] theorem taking_pending (s : State) (r : Request) : (s.taking r).pending = true := rfl
@[simp] theorem taking_response (s : State) (r : Request) : (s.taking r).response = s.response := rfl

@[simp] theorem applyReset_width (s : State) : s.applyReset.width = s.width := rfl
@[simp] theorem applyReset_request (s : State) : s.applyReset.request = s.request := rfl
@[simp] theorem applyReset_pending (s : State) : s.applyReset.pending = false := rfl
@[simp] theorem applyReset_response (s : State) : s.applyReset.response = none := rfl

@[simp] theorem resetOf_width (w : Width) : (State.resetOf w).width = w := rfl
@[simp] theorem resetOf_request (w : Width) : (State.resetOf w).request = Request.atReset w.limbs := rfl
@[simp] theorem resetOf_pending (w : Width) : (State.resetOf w).pending = false := rfl
@[simp] theorem resetOf_response (w : Width) : (State.resetOf w).response = none := rfl

@[simp] theorem freed_width (s : State) : s.freed.width = s.width := by unfold State.freed; split <;> rfl
@[simp] theorem freed_request (s : State) : s.freed.request = s.request := by unfold State.freed; split <;> rfl
@[simp] theorem freed_pending (s : State) : s.freed.pending = false := by unfold State.freed; split <;> simp_all

/-- Without a request being taken the host can issue one (R217). -/
theorem present_of_not_pending {s : State} (h : s.pending = false) (r : Request) : s.present r = some (s.taking r) := by
  rw [State.present, h]

/-- While a request is being taken there is no issuing (R52). -/
theorem present_of_pending {s : State} (h : s.pending = true) (r : Request) : s.present r = none := by
  rw [State.present, h]

/-- Everything the issuing of a request can do (R52, R217). -/
theorem present_eq_some_iff (s t : State) (r : Request) :
    s.present r = some t ↔ s.pending = false ∧ t = s.taking r := by
  rcases Bool.eq_false_or_eq_true s.pending with h | h
  · simp [present_of_pending h, h]
  · simp [present_of_not_pending h, h, eq_comm]

/-- Everything a move of the host can do: issue a request where none is being taken, or reset (R52, R210, R217). -/
theorem move_cases {s t : State} {m : HostMove} (h : s.move m = some t) :
    (∃ r, m = .issue r ∧ s.pending = false ∧ t = s.taking r) ∨ (m = .reset ∧ t = s.applyReset) := by
  cases m with
  | issue r => exact .inl ⟨r, rfl, (present_eq_some_iff s t r).mp h⟩
  | reset => exact .inr ⟨rfl, (Option.some.inj h).symm⟩

@[simp] theorem withFetchWord_width (s : State) (k w : Nat) : (s.withFetchWord k w).width = s.width := freed_width s
@[simp] theorem withFetchWord_pending (s : State) (k w : Nat) : (s.withFetchWord k w).pending = true := rfl
@[simp] theorem withFetchWord_response (s : State) (k w : Nat) : (s.withFetchWord k w).response = s.freed.response := rfl
@[simp] theorem withFetchWord_cmd (s : State) (k w : Nat) :
    (s.withFetchWord k w).request.cmd = commandOfTableWord k w := rfl
@[simp] theorem withFetchWord_A (s : State) (k w : Nat) : (s.withFetchWord k w).request.A = s.request.A := rfl
@[simp] theorem withFetchWord_B (s : State) (k w : Nat) : (s.withFetchWord k w).request.B = s.request.B := rfl
@[simp] theorem withFetchWord_amt (s : State) (k w : Nat) : (s.withFetchWord k w).request.amt = s.request.amt := rfl
@[simp] theorem withFetchWord_nat (s : State) (k w : Nat) : (s.withFetchWord k w).request.nat = s.request.nat := rfl
@[simp] theorem withFetchWord_bin (s : State) (k w : Nat) : (s.withFetchWord k w).request.bin = s.request.bin := rfl

@[simp] theorem withAB_width (s : State) (a b : LimbVec) : (s.withAB a b).width = s.width := rfl
@[simp] theorem withAB_A (s : State) (a b : LimbVec) : (s.withAB a b).request.A = a := rfl
@[simp] theorem withAB_B (s : State) (a b : LimbVec) : (s.withAB a b).request.B = b := rfl
@[simp] theorem withShift_width (s : State) (a : LimbVec) (amt : BitVec 32) : (s.withShift a amt).width = s.width := rfl
@[simp] theorem withShift_A (s : State) (a : LimbVec) (amt : BitVec 32) : (s.withShift a amt).request.A = a := rfl
@[simp] theorem withShift_amt (s : State) (a : LimbVec) (amt : BitVec 32) : (s.withShift a amt).request.amt = amt := rfl

@[simp] theorem limbs_R (v : LimbVec) : (Response.limbs v).R = some v := rfl
@[simp] theorem limbs_status (v : LimbVec) : (Response.limbs v).status = .ok := rfl
@[simp] theorem limbsFlag_R (v : LimbVec) (b : Bool) : (Response.limbsFlag v b).R = some v := rfl
@[simp] theorem limbsFlag_flag (v : LimbVec) (b : Bool) : (Response.limbsFlag v b).flag = some b := rfl
@[simp] theorem bytes_bout (b : ByteSeq) : (Response.bytes b).bout = some b := rfl
@[simp] theorem order_ord (o : Order) : (Response.order o).ord = some o := rfl
@[simp] theorem truth_flag (b : Bool) : (Response.truth b).flag = some b := rfl
@[simp] theorem signal_status (sig : Signal) : (Response.signal sig).status = .signalled sig := rfl

/-- Answering a request changes the progress bit and the response ports only. -/
theorem respond_eq (r : Response) (s : State) : respond r s = .next (s.answered r) := rfl

/-- A signal is a response like any other, and nothing else (R198). -/
theorem raiseSignal_eq (sig : Signal) (s : State) : raiseSignal sig s = .next (s.answered (.signal sig)) := rfl

theorem responseOf_respond (r : Response) (s : State) : responseOf (respond r s) = some r := rfl

theorem limbCount_eq (s : State) : s.limbCount = s.width.limbs := rfl

/-- W = 32·N for every instance (R8, R16). -/
theorem bits_eq (w : Width) : w.bits = 32 * w.limbs := by cases w <;> rfl

/-- Every instance has at least four limbs and at most sixteen (R8). -/
theorem limbs_bounds (w : Width) : 4 ≤ w.limbs ∧ w.limbs ≤ 16 := by cases w <;> decide

/-- The byte length of a value is 4·N (R8). -/
theorem bytes_eq (w : Width) : w.bytes = 4 * w.limbs := by cases w <;> rfl

/-- What FROMBRIDGE answers, once: a value with flag 1, or Zero with flag 0 (R172, R194). -/
theorem execFromBridge_eq (sg : Signedness) (s : State) :
    execFromBridge sg s = .next (s.answered (match fromBridge sg s.limbCount s.request.bin with
      | some v => .limbsFlag v true
      | none => .limbsFlag (zeroVec s.limbCount) false)) := by
  unfold execFromBridge
  split <;> simp_all [respond_eq]

/-- What FROMBYTES answers, once (R80). -/
theorem execFromBytes_eq (s : State) :
    execFromBytes s = .next (s.answered (if s.request.blen ≠ 4 * s.limbCount then .signal .invalidArgument
      else .limbs (limbsOfBytes s.limbCount (byteAt s.request.bin 0)))) := by
  unfold execFromBytes
  split <;> simp_all [respond_eq, raiseSignal_eq]

/-- Everything a legal request can do: it is answered, with some response, and nothing else changes. -/
theorem exec_answers (i : Instr) (s : State) : ∃ r, exec i s = .next (s.answered r) := by
  cases i
  case fromBytes => exact ⟨_, execFromBytes_eq s⟩
  case fromBridge sg => exact ⟨_, execFromBridge_eq sg s⟩
  all_goals exact ⟨_, rfl⟩

/-- Everything a step can do: wait, with no value on the response ports, or answer the request in progress. -/
theorem step_cases (s : State) :
    (s.pending = false ∧ step s = .next { s with response := none }) ∨
      (s.pending = true ∧ ∃ r, step s = .next (s.answered r)) := by
  rcases Bool.eq_false_or_eq_true s.pending with hp | hp
  · refine .inr ⟨hp, ?_⟩
    cases hd : decode s.request.cmd with
    | error e => exact ⟨_, by simp only [step, hp, hd]; rfl⟩
    | ok i =>
      obtain ⟨r, hr⟩ := exec_answers i s
      exact ⟨r, by simp only [step, hp, hd, hr]⟩
  · exact .inl ⟨hp, by simp only [step, hp, idle]⟩

end Sys2Proof.Machine
end

