-- ==== Sys2Proof/Laws/Value.lean ====
section
/-! SUPPORT. Limb vectors, their limbs and their values (00_scope.md R16): the lemmas that let a proof go from limbs to
numbers and back. -/

namespace Sys2Proof.Machine

@[simp] theorem length_build (n : Nat) (f : Nat → Limb) : (build n f).length = n := by simp [build]

theorem limb_build (n : Nat) (f : Nat → Limb) (i : Nat) (h : i < n) : limb (build n f) i = f i := by
  simp [limb, build, List.getD_eq_getElem?_getD, h]

theorem build_succ (n : Nat) (f : Nat → Limb) : build (n + 1) f = build n f ++ [f n] := by
  simp [build, List.range_succ]

theorem build_congr {n : Nat} {f g : Nat → Limb} (h : ∀ i < n, f i = g i) : build n f = build n g := by
  simp only [build]
  exact List.map_congr_left fun i hi => h i (by simpa using hi)

/-- Two vectors of n limbs with the same limbs are the same vector. -/
theorem limbVec_ext {n : Nat} {u v : LimbVec} (hu : u.length = n) (hv : v.length = n)
    (h : ∀ i < n, limb u i = limb v i) : u = v := by
  apply List.ext_getElem (by omega)
  intro i h1 h2
  have := h i (by omega)
  simpa [limb, List.getD_eq_getElem?_getD, h1, h2] using this

/-- A vector of n limbs is built from its limbs. -/
theorem build_limb {n : Nat} {v : LimbVec} (h : v.length = n) : build n (limb v) = v :=
  limbVec_ext (by simp) h fun i hi => limb_build n _ i hi

@[simp] theorem length_zeroVec (n : Nat) : (zeroVec n).length = n := length_build ..
@[simp] theorem length_oneVec (n : Nat) : (oneVec n).length = n := length_build ..
@[simp] theorem length_limbsOf (n : Nat) (x : Int) : (limbsOf n x).length = n := length_build ..
@[simp] theorem length_limbsOfBytes (n : Nat) (f : Nat → Byte) : (limbsOfBytes n f).length = n := length_build ..
@[simp] theorem length_layout (n : Nat) (v : LimbVec) : (layout n v).length = 4 * n := by simp [layout]

@[simp] theorem valU_nil : valU [] = 0 := rfl
@[simp] theorem valU_cons (l : Limb) (v : LimbVec) : valU (l :: v) = l.toNat + 2 ^ 32 * valU v := rfl

theorem valU_append (u v : LimbVec) : valU (u ++ v) = valU u + 2 ^ (32 * u.length) * valU v := by
  induction u with
  | nil => simp
  | cons l u ih =>
    simp only [List.cons_append, valU_cons, ih, List.length_cons]
    rw [show 32 * (u.length + 1) = 32 + 32 * u.length by omega, pow_add]
    ring

/-- One more limb at the top adds its multiple of 2^(32·n) (R16). -/
theorem valU_build_succ (n : Nat) (f : Nat → Limb) :
    valU (build (n + 1) f) = valU (build n f) + 2 ^ (32 * n) * (f n).toNat := by
  simp [build_succ, valU_append]

theorem valU_lt (v : LimbVec) : valU v < 2 ^ (32 * v.length) := by
  induction v with
  | nil => simp
  | cons l v ih =>
    have := l.isLt
    rw [valU_cons, List.length_cons, show 32 * (v.length + 1) = 32 + 32 * v.length by omega, pow_add]
    have h2 : 2 ^ 32 * (valU v + 1) ≤ 2 ^ 32 * 2 ^ (32 * v.length) := Nat.mul_le_mul_left _ ih
    omega

theorem valU_lt_of_length {n : Nat} {v : LimbVec} (h : v.length = n) : valU v < 2 ^ (32 * n) := h ▸ valU_lt v

/-- val_u is injective on vectors of one length (R22). -/
theorem valU_inj {u v : LimbVec} (hl : u.length = v.length) (h : valU u = valU v) : u = v := by
  induction u generalizing v with
  | nil => cases v <;> simp_all
  | cons a u ih =>
    cases v with
    | nil => simp at hl
    | cons b v =>
      simp only [valU_cons] at h
      have ha := a.isLt
      have hb := b.isLt
      have h1 : a.toNat = b.toNat := by omega
      have h2 : valU u = valU v := by omega
      rw [BitVec.eq_of_toNat_eq h1, ih (by simpa using hl) h2]

/-- Bit p of val_u is bit p mod 32 of limb p div 32 (R14, R16). -/
theorem valU_testBit (v : LimbVec) (p : Nat) : (valU v).testBit p = (limb v (p / 32)).getLsbD (p % 32) := by
  induction v generalizing p with
  | nil => simp [limb]
  | cons l v ih =>
    rw [valU_cons, add_comm, Nat.testBit_two_pow_mul_add _ l.isLt]
    split
    · rename_i h
      simp [limb, Nat.div_eq_of_lt h, Nat.mod_eq_of_lt h, BitVec.testBit_toNat]
    · rename_i h
      obtain ⟨q, rfl⟩ : ∃ q, p = q + 32 := ⟨p - 32, by omega⟩
      simp [ih, limb]

/-- The value of the limbs a natural number is cut into. -/
theorem valU_build_digits (n x : Nat) :
    valU (build n fun i => BitVec.ofNat 32 (x / 2 ^ (32 * i))) = x % 2 ^ (32 * n) := by
  induction n with
  | zero => simp [build, Nat.mod_one]
  | succ n ih =>
    rw [valU_build_succ, ih, BitVec.toNat_ofNat, show 32 * (n + 1) = 32 * n + 32 by omega, pow_add, Nat.mod_mul]

/-- `limbs(x)` has the value x mod 2^W (R16). -/
theorem valU_limbsOf (n : Nat) (x : Int) : (valU (limbsOf n x) : Int) = x % 2 ^ (32 * n) := by
  have h0 : 0 ≤ x % 2 ^ (32 * n) := Int.emod_nonneg _ (by positivity)
  have h1 : x % 2 ^ (32 * n) < 2 ^ (32 * n) := Int.emod_lt_of_pos _ (by positivity)
  have h2 : (x % 2 ^ (32 * n)).toNat < 2 ^ (32 * n) := by
    zify
    rw [Int.toNat_of_nonneg h0]
    exact h1
  rw [limbsOf, valU_build_digits, Nat.mod_eq_of_lt h2, Int.toNat_of_nonneg h0]

/-- A vector of n limbs is `limbs(x)` exactly when its value is x mod 2^W. -/
theorem eq_limbsOf_iff {n : Nat} {v : LimbVec} (h : v.length = n) (x : Int) :
    v = limbsOf n x ↔ (valU v : Int) = x % 2 ^ (32 * n) := by
  constructor
  · rintro rfl
    exact valU_limbsOf n x
  · intro hv
    apply valU_inj (by simp [h])
    exact_mod_cast hv.trans (valU_limbsOf n x).symm

/-- The sign bit is bit W−1 of val_u (R23). -/
theorem signbit_eq_testBit {n : Nat} (v : LimbVec) (hn : 0 < n) : signbit n v = (valU v).testBit (32 * n - 1) := by
  rw [valU_testBit, signbit, BitVec.msb_eq_getLsbD_last]
  congr 2 <;> omega

/-- The sign bit is set exactly when val_u is at least 2^(W−1) (R23). -/
theorem signbit_iff {n : Nat} {v : LimbVec} (h : v.length = n) (hn : 0 < n) :
    signbit n v = true ↔ 2 ^ (32 * n - 1) ≤ valU v := by
  have hv := valU_lt_of_length h
  rw [signbit_eq_testBit v hn, Nat.testBit_eq_decide_div_mod_eq, decide_eq_true_eq]
  have hp : 2 ^ (32 * n) = 2 ^ (32 * n - 1) * 2 := by rw [← pow_succ]; congr 1; omega
  have hq : valU v / 2 ^ (32 * n - 1) < 2 := Nat.div_lt_of_lt_mul (by omega)
  rw [Nat.mod_eq_of_lt hq]
  constructor
  · intro h1
    have := Nat.div_mul_le_self (valU v) (2 ^ (32 * n - 1))
    rw [h1] at this
    omega
  · intro h1
    have := Nat.div_pos h1 (by positivity)
    omega

/-- The signed value modulo 2^W is the unsigned value (R24). -/
theorem valS_emod {n : Nat} {v : LimbVec} (h : v.length = n) : valS n v % 2 ^ (32 * n) = (valU v : Int) := by
  have hv : (valU v : Int) < 2 ^ (32 * n) := by exact_mod_cast valU_lt_of_length h
  unfold valS
  split
  · rw [Int.sub_emod_right]
    exact Int.emod_eq_of_lt (by positivity) hv
  · rw [sub_zero]
    exact Int.emod_eq_of_lt (by positivity) hv

/-- The signed value lies in the signed range (R16). -/
theorem valS_range {n : Nat} {v : LimbVec} (h : v.length = n) (hn : 0 < n) :
    -(2 ^ (32 * n - 1)) ≤ valS n v ∧ valS n v < 2 ^ (32 * n - 1) := by
  have hv : (valU v : Int) < 2 ^ (32 * n) := by exact_mod_cast valU_lt_of_length h
  have hp : (2 : Int) ^ (32 * n) = 2 * 2 ^ (32 * n - 1) := by rw [← pow_succ']; congr 1; omega
  have hs := signbit_iff h hn
  unfold valS
  split
  · rename_i hb
    have : (2 : Int) ^ (32 * n - 1) ≤ valU v := by exact_mod_cast hs.mp hb
    omega
  · rename_i hb
    have : ¬ 2 ^ (32 * n - 1) ≤ valU v := fun hc => hb (hs.mpr hc)
    have : (valU v : Int) < 2 ^ (32 * n - 1) := by exact_mod_cast Nat.lt_of_not_le this
    have : (0 : Int) < 2 ^ (32 * n - 1) := by positivity
    omega

/-- 2^W is twice 2^(W−1). -/
theorem two_pow_bits {n : Nat} (hn : 0 < n) : 2 ^ (32 * n) = 2 * 2 ^ (32 * n - 1) := by
  rw [← pow_succ']
  congr 1
  omega

/-- The signed value by cases on the unsigned one (R16). -/
theorem valS_eq_ite {n : Nat} {v : LimbVec} (h : v.length = n) (hn : 0 < n) :
    valS n v = if 2 ^ (32 * n - 1) ≤ valU v then (valU v : Int) - 2 ^ (32 * n) else valU v := by
  have hs := signbit_iff h hn
  unfold valS
  by_cases hc : signbit n v = true
  · simp [hc, hs.mp hc]
  · have : ¬ 2 ^ (32 * n - 1) ≤ valU v := fun hx => hc (hs.mpr hx)
    simp [hc, this]

/-- A signed number is the signed value of the vector that holds its residue (R16). -/
theorem valS_eq_of_emod {n : Nat} {v : LimbVec} (h : v.length = n) (hn : 0 < n) {x : Int}
    (h1 : -(2 ^ (32 * n - 1)) ≤ x) (h2 : x < 2 ^ (32 * n - 1)) (hv : (valU v : Int) = x % 2 ^ (32 * n)) :
    valS n v = x := by
  have hr := valS_range h hn
  have hp : (2 : Int) ^ (32 * n) = 2 * 2 ^ (32 * n - 1) := by exact_mod_cast two_pow_bits hn
  have hpos : (0 : Int) < 2 ^ (32 * n - 1) := by positivity
  have hm : valS n v % 2 ^ (32 * n) = x % 2 ^ (32 * n) := by rw [valS_emod h, hv]
  obtain ⟨c, hc⟩ := Int.ModEq.dvd (Int.ModEq.symm hm)
  rcases lt_trichotomy c 0 with hl | rfl | hg
  · nlinarith
  · omega
  · nlinarith

end Sys2Proof.Machine
end

