-- ==== Sys2Proof/Laws/Arithmetic.lean ====
section
/-! SUPPORT. One lemma per operation of the arithmetic engine that says everything it computes, as a value. -/

namespace Sys2Proof.Machine

/-- The invariant of the ripple-carry loop: the limbs written so far and the carry hold the sum of the limbs read so far
(R102). -/
theorem ripple_invariant (c : Nat) (a b : LimbVec) (n : Nat) :
    valU (addWithCarry n c a b) + 2 ^ (32 * n) * carryInto c a b n =
      c + valU (build n (limb a)) + valU (build n (limb b)) := by
  induction n with
  | zero => simp [addWithCarry, build, carryInto]
  | succ n ih =>
    rw [addWithCarry] at ih ⊢
    rw [valU_build_succ, valU_build_succ, valU_build_succ, carryInto, BitVec.toNat_ofNat,
      show 32 * (n + 1) = 32 * n + 32 by omega, pow_add]
    have hd : 2 ^ (32 * n) * ((carryInto c a b n + (limb a n).toNat + (limb b n).toNat) % 2 ^ 32 +
        2 ^ 32 * ((carryInto c a b n + (limb a n).toNat + (limb b n).toNat) / 2 ^ 32)) =
        2 ^ (32 * n) * (carryInto c a b n + (limb a n).toNat + (limb b n).toNat) := by rw [Nat.mod_add_div]
    rw [Nat.mul_add, Nat.mul_add, Nat.mul_add, ← Nat.mul_assoc] at hd
    omega

theorem carryInto_le_one {c : Nat} (hc : c ≤ 1) (a b : LimbVec) (i : Nat) : carryInto c a b i ≤ 1 := by
  induction i with
  | zero => exact hc
  | succ i ih =>
    have ha := (limb a i).isLt
    have hb := (limb b i).isLt
    rw [carryInto]
    omega

@[simp] theorem length_addWithCarry (n c : Nat) (a b : LimbVec) : (addWithCarry n c a b).length = n := length_build ..
@[simp] theorem length_addLimbs (n : Nat) (a b : LimbVec) : (addLimbs n a b).length = n := length_build ..
@[simp] theorem length_notLimbs (n : Nat) (a : LimbVec) : (notLimbs n a).length = n := length_build ..
@[simp] theorem length_negLimbs (n : Nat) (a : LimbVec) : (negLimbs n a).length = n := length_build ..
@[simp] theorem length_subLimbs (n : Nat) (a b : LimbVec) : (subLimbs n a b).length = n := length_build ..
@[simp] theorem length_subOnePass (n : Nat) (a b : LimbVec) : (subOnePass n a b).length = n := length_build ..

/-- Ripple-carry addition is addition modulo 2^W (R102). -/
theorem valU_addWithCarry {n : Nat} (c : Nat) {a b : LimbVec} (ha : a.length = n) (hb : b.length = n) :
    valU (addWithCarry n c a b) = (c + valU a + valU b) % 2 ^ (32 * n) := by
  have h := ripple_invariant c a b n
  rw [build_limb ha, build_limb hb] at h
  rw [← h, Nat.add_mul_mod_self_left, Nat.mod_eq_of_lt (valU_lt_of_length (by simp))]

theorem valU_addLimbs {n : Nat} {a b : LimbVec} (ha : a.length = n) (hb : b.length = n) :
    valU (addLimbs n a b) = (valU a + valU b) % 2 ^ (32 * n) := by
  rw [addLimbs, valU_addWithCarry 0 ha hb, zero_add]

/-- A vector and its complement sum to 2^W − 1 (R104). -/
theorem valU_build_not (n : Nat) (a : LimbVec) :
    valU (notLimbs n a) + valU (build n (limb a)) + 1 = 2 ^ (32 * n) := by
  unfold notLimbs
  induction n with
  | zero => simp [build]
  | succ n ih =>
    have hl : (~~~(limb a n)).toNat + (limb a n).toNat + 1 = 2 ^ 32 := by
      have := (limb a n).isLt
      rw [BitVec.toNat_not]
      omega
    rw [valU_build_succ, valU_build_succ, show 32 * (n + 1) = 32 * n + 32 by omega, pow_add, ← hl, ← ih]
    ring

theorem valU_notLimbs {n : Nat} {a : LimbVec} (ha : a.length = n) :
    valU (notLimbs n a) = 2 ^ (32 * n) - 1 - valU a := by
  have h := valU_build_not n a
  rw [build_limb ha] at h
  omega

theorem valU_zeroVec (n : Nat) : valU (zeroVec n) = 0 := by
  unfold zeroVec
  induction n with
  | zero => rfl
  | succ n ih => rw [valU_build_succ, ih]; rfl

theorem valU_oneVec {n : Nat} (hn : 0 < n) : valU (oneVec n) = 1 := by
  unfold oneVec
  induction n with
  | zero => omega
  | succ n ih =>
    rw [valU_build_succ]
    rcases Nat.eq_zero_or_pos n with rfl | h
    · rfl
    · rw [ih h, if_neg (by omega)]; rfl

theorem valU_negLimbs {n : Nat} {a : LimbVec} (hn : 0 < n) (ha : a.length = n) :
    valU (negLimbs n a) = (2 ^ (32 * n) - valU a) % 2 ^ (32 * n) := by
  have hv := valU_lt_of_length ha
  rw [negLimbs, valU_addLimbs (by simp) (by simp), valU_notLimbs ha, valU_oneVec hn]
  congr 1
  omega

theorem valU_subLimbs {n : Nat} {a b : LimbVec} (hn : 0 < n) (ha : a.length = n) (hb : b.length = n) :
    valU (subLimbs n a b) = (valU a + (2 ^ (32 * n) - valU b)) % 2 ^ (32 * n) := by
  rw [subLimbs, valU_addLimbs ha (by simp), valU_negLimbs hn hb, Nat.add_mod_mod]

@[simp] theorem length_maxU (n : Nat) : (maxU n).length = n := length_build ..
@[simp] theorem length_maxS (n : Nat) : (maxS n).length = n := length_build ..
@[simp] theorem length_minS (n : Nat) : (minS n).length = n := length_build ..

/-- Every limb all ones is the largest unsigned number (R34). -/
theorem valU_build_ones (n : Nat) : valU (build n fun _ => (0xFFFFFFFF : Limb)) + 1 = 2 ^ (32 * n) := by
  induction n with
  | zero => rfl
  | succ n ih =>
    rw [valU_build_succ, show 32 * (n + 1) = 32 * n + 32 by omega, pow_add, ← ih,
      show (0xFFFFFFFF : Limb).toNat = 2 ^ 32 - 1 from rfl]
    ring_nf

theorem valU_maxU (n : Nat) : valU (maxU n) = 2 ^ (32 * n) - 1 := by
  have := valU_build_ones n
  unfold maxU
  omega

theorem valU_minS {n : Nat} (hn : 0 < n) : valU (minS n) = 2 ^ (32 * n - 1) := by
  obtain ⟨m, rfl⟩ : ∃ m, n = m + 1 := ⟨n - 1, by omega⟩
  have hz := valU_zeroVec m
  unfold minS
  rw [valU_build_succ, build_congr (g := fun _ => 0) (by intro i hi; simp; omega)]
  unfold zeroVec at hz
  rw [hz, show 32 * (m + 1) - 1 = 32 * m + 31 by omega, pow_add]
  simp

theorem valU_maxS {n : Nat} (hn : 0 < n) : valU (maxS n) = 2 ^ (32 * n - 1) - 1 := by
  obtain ⟨m, rfl⟩ : ∃ m, n = m + 1 := ⟨n - 1, by omega⟩
  have ho := valU_build_ones m
  unfold maxS
  rw [valU_build_succ, build_congr (g := fun _ => 0xFFFFFFFF) (by intro i hi; simp; omega),
    show 32 * (m + 1) - 1 = 32 * m + 31 by omega, pow_add, ← ho]
  simp
  omega

end Sys2Proof.Machine
end

