-- ==== Sys2Proof/Laws/Bytes.lean ====
section
/-! SUPPORT. The byte layout of a value (20_memory.md R42, R43) and the value of a byte sequence. -/

namespace Sys2Proof.Machine

@[simp] theorem valBytes_nil : valBytes [] = 0 := rfl
@[simp] theorem valBytes_cons (b : Byte) (bs : ByteSeq) : valBytes (b :: bs) = b.toNat + 2 ^ 8 * valBytes bs := rfl

theorem valBytes_append (u v : ByteSeq) : valBytes (u ++ v) = valBytes u + 2 ^ (8 * u.length) * valBytes v := by
  induction u with
  | nil => simp
  | cons b u ih =>
    simp only [List.cons_append, valBytes_cons, ih, List.length_cons]
    rw [show 8 * (u.length + 1) = 8 + 8 * u.length by omega, pow_add]
    ring

theorem valBytes_lt (b : ByteSeq) : valBytes b < 2 ^ (8 * b.length) := by
  induction b with
  | nil => simp
  | cons x b ih =>
    have := x.isLt
    rw [valBytes_cons, List.length_cons, show 8 * (b.length + 1) = 8 + 8 * b.length by omega, pow_add]
    have h2 : 2 ^ 8 * (valBytes b + 1) ≤ 2 ^ 8 * 2 ^ (8 * b.length) := Nat.mul_le_mul_left _ ih
    omega

/-- Bit p of the value of a byte sequence is bit p mod 8 of byte p div 8 (R43). -/
theorem valBytes_testBit (b : ByteSeq) (p : Nat) :
    (valBytes b).testBit p = (b.getD (p / 8) 0).getLsbD (p % 8) := by
  induction b generalizing p with
  | nil => simp
  | cons x b ih =>
    rw [valBytes_cons, add_comm, Nat.testBit_two_pow_mul_add _ x.isLt]
    split
    · rename_i h
      simp [Nat.div_eq_of_lt h, Nat.mod_eq_of_lt h, BitVec.testBit_toNat]
    · rename_i h
      obtain ⟨q, rfl⟩ : ∃ q, p = q + 8 := ⟨p - 8, by omega⟩
      simp [ih]

/-- Byte m of the layout (R42). -/
theorem layout_getD (n : Nat) (v : LimbVec) (m : Nat) (h : m < 4 * n) : (layout n v).getD m 0 = layoutByte v m := by
  simp [layout, List.getD_eq_getElem?_getD, h]

/-- The limb made of four bytes has their value (R80). -/
theorem toNat_limbOfBytes (b0 b1 b2 b3 : Byte) :
    (limbOfBytes b0 b1 b2 b3).toNat = b0.toNat + b1.toNat * 2 ^ 8 + b2.toNat * 2 ^ 16 + b3.toNat * 2 ^ 24 := by
  have h0 := b0.isLt
  have h1 := b1.isLt
  have h2 := b2.isLt
  have h3 := b3.isLt
  rw [limbOfBytes, BitVec.toNat_ofNat]
  exact Nat.mod_eq_of_lt (by omega)

theorem limb_limbsOfBytes (n : Nat) (f : Nat → Byte) (i : Nat) (h : i < n) :
    limb (limbsOfBytes n f) i = limbOfBytes (f (4 * i)) (f (4 * i + 1)) (f (4 * i + 2)) (f (4 * i + 3)) :=
  limb_build n _ i h

/-- The value built from 4·n bytes is the value of the bytes (R43, R80). -/
theorem valU_limbsOfBytes (n : Nat) (f : Nat → Byte) :
    valU (limbsOfBytes n f) = valBytes ((List.range (4 * n)).map f) := by
  unfold limbsOfBytes
  induction n with
  | zero => rfl
  | succ n ih =>
    rw [valU_build_succ, ih, toNat_limbOfBytes, show 4 * (n + 1) = 4 * n + 4 by omega, List.range_add, List.map_append,
      valBytes_append]
    simp only [List.length_map, List.length_range, show 8 * (4 * n) = 32 * n by omega,
      show List.range 4 = [0, 1, 2, 3] from rfl, List.map_cons, List.map_nil, valBytes_cons, valBytes_nil,
      Nat.add_zero]
    ring

/-- A byte sequence read back byte by byte. -/
theorem map_byteAt_range (b : ByteSeq) (pad : Byte) : (List.range b.length).map (byteAt b pad) = b := by
  apply List.ext_getElem (by simp)
  intro i h1 h2
  simp [byteAt, List.getD_eq_getElem?_getD, h2]

/-- The layout of a value, read as bytes, has the value's val_u (R43). -/
theorem limbOfBytes_layoutByte (v : LimbVec) (i : Nat) :
    limbOfBytes (layoutByte v (4 * i)) (layoutByte v (4 * i + 1)) (layoutByte v (4 * i + 2)) (layoutByte v (4 * i + 3)) =
      limb v i := by
  apply BitVec.eq_of_toNat_eq
  have h := (limb v i).isLt
  rw [toNat_limbOfBytes]
  simp only [layoutByte, BitVec.extractLsb'_toNat, Nat.shiftRight_eq_div_pow,
    show (4 * i) / 4 = i by omega, show (4 * i + 1) / 4 = i by omega, show (4 * i + 2) / 4 = i by omega,
    show (4 * i + 3) / 4 = i by omega, show (4 * i) % 4 = 0 by omega, show (4 * i + 1) % 4 = 1 by omega,
    show (4 * i + 2) % 4 = 2 by omega, show (4 * i + 3) % 4 = 3 by omega]
  omega

theorem limbsOfBytes_layoutByte {n : Nat} {v : LimbVec} (h : v.length = n) : limbsOfBytes n (layoutByte v) = v := by
  unfold limbsOfBytes
  rw [build_congr fun i _ => limbOfBytes_layoutByte v i]
  exact build_limb h

theorem valBytes_layout {n : Nat} {v : LimbVec} (h : v.length = n) : valBytes (layout n v) = valU v := by
  rw [layout, ← valU_limbsOfBytes, limbsOfBytes_layoutByte h]

/-- Byte 4·i + j of the layout (R42). -/
theorem layout_getElem? (n : Nat) (v : LimbVec) {i j : Nat} (hi : i < n) (hj : j < 4) :
    (layout n v)[4 * i + j]? = some ((limb v i).extractLsb' (8 * j) 8) := by
  rw [layout, List.getElem?_map, List.getElem?_range (by omega)]
  simp [layoutByte, show (4 * i + j) / 4 = i by omega, show (4 * i + j) % 4 = j by omega]

/-- Bytes of a sequence continued by a pad byte (R172). -/
theorem map_byteAt_padded (b : ByteSeq) (pad : Byte) {k : Nat} (hl : b.length ≤ k) :
    (List.range k).map (byteAt b pad) = b ++ List.replicate (k - b.length) pad := by
  apply List.ext_getElem (by simp; omega)
  intro i h1 h2
  simp only [byteAt, List.getElem_map, List.getElem_range, List.getD_eq_getElem?_getD, List.getElem_append]
  split
  · rename_i h
    simp [h]
  · rename_i h
    simp [show b.length ≤ i by omega]

theorem valBytes_replicate_ones (m : Nat) : valBytes (List.replicate m 0xFF) + 1 = 2 ^ (8 * m) := by
  induction m with
  | zero => rfl
  | succ m ih =>
    rw [List.replicate_succ, valBytes_cons, show 8 * (m + 1) = 8 * m + 8 by omega, pow_add, ← ih,
      show (0xFF : Byte).toNat = 2 ^ 8 - 1 from rfl]
    ring_nf

theorem valBytes_replicate_zero (m : Nat) : valBytes (List.replicate m 0x00) = 0 := by
  induction m with
  | zero => rfl
  | succ m ih =>
    rw [List.replicate_succ, valBytes_cons, ih]
    rfl

end Sys2Proof.Machine
end

