-- ==== Sys2Proof/Laws/Bridge.lean ====
section
/-! SUPPORT. The bridge sequence (44_bridge.md): its sign, its value, the shapes FROMBRIDGE accepts, and what FROMBRIDGE
answers. -/

namespace Sys2Proof.Machine

/-- The sign of a sequence, in the words of R172. -/
theorem bridgeNegative_iff (b : ByteSeq) :
    bridgeNegative b = true ↔ 1 ≤ b.length ∧ (b.getD (b.length - 1) 0).getLsbD 7 = true := by
  simp [bridgeNegative, BitVec.msb_eq_getLsbD_last]

/-- The sign of a sequence, by the value of its bytes (R170). -/
theorem bridgeNegative_iff_le {b : ByteSeq} (h : 1 ≤ b.length) :
    bridgeNegative b = true ↔ 2 ^ (8 * b.length - 1) ≤ valBytes b := by
  have hl := valBytes_lt b
  have hp : 2 ^ (8 * b.length) = 2 * 2 ^ (8 * b.length - 1) := by rw [← pow_succ']; congr 1; omega
  have ht := valBytes_testBit b (8 * b.length - 1)
  rw [show (8 * b.length - 1) / 8 = b.length - 1 by omega, show (8 * b.length - 1) % 8 = 7 by omega] at ht
  rw [bridgeNegative_iff, ← ht]
  constructor
  · intro hx
    exact Nat.ge_two_pow_of_testBit hx.2
  · intro hx
    have h1 : valBytes b / 2 ^ (8 * b.length - 1) = 1 := by apply Nat.div_eq_of_lt_le <;> omega
    exact ⟨h, by simp [Nat.testBit_eq_decide_div_mod_eq, h1]⟩

theorem bval_of_not_negative {b : ByteSeq} (h : bridgeNegative b = false) : bval b = valBytes b := by simp [bval, h]

theorem bval_of_negative {b : ByteSeq} (h : bridgeNegative b = true) : bval b = valBytes b - 2 ^ (8 * b.length) := by
  simp [bval, h]

/-- The tolerated over-long shape, in the words of R172. -/
theorem toleratedZero_iff (sg : Signedness) (n : Nat) (b : ByteSeq) :
    toleratedZero sg n b = true ↔ (sg = .unsigned ∧ b.length = 4 * n + 1 ∧ b[4 * n]? = some 0 ∧
      (b.getD (4 * n - 1) 0).getLsbD 7 = true) := by
  simp only [toleratedZero, byteAt, Bool.and_eq_true, decide_eq_true_eq, beq_iff_eq, BitVec.msb_eq_getLsbD_last,
    and_assoc]
  refine and_congr_right fun _ => and_congr_right fun hl => and_congr_left fun _ => ?_
  rw [List.getD_eq_getElem?_getD, List.getElem?_eq_getElem (by omega)]
  simp

/-- The value a short sequence builds is its number modulo 2^W: the pad extends the sign (R172). -/
theorem valU_signExtended (b : ByteSeq) {n : Nat} (hl : b.length ≤ 4 * n) :
    (valU (limbsOfBytes n (byteAt b (bridgePad b))) : Int) = bval b % 2 ^ (32 * n) := by
  have hlt := valBytes_lt b
  have hp : 2 ^ (32 * n) = 2 ^ (8 * b.length) * 2 ^ (8 * (4 * n - b.length)) := by rw [← pow_add]; congr 1; omega
  have hle : 2 ^ (8 * b.length) ≤ 2 ^ (32 * n) := Nat.pow_le_pow_right (by omega) (by omega)
  have hcast (m : Nat) : ((2 ^ m : Nat) : Int) = 2 ^ m := by push_cast; rfl
  rw [valU_limbsOfBytes, map_byteAt_padded _ _ hl, valBytes_append, ← hcast]
  cases hb : bridgeNegative b
  · rw [bval_of_not_negative hb, bridgePad, hb, if_neg (by simp), valBytes_replicate_zero]
    norm_cast
    rw [Nat.mod_eq_of_lt (by omega), Nat.mul_zero, Nat.add_zero]
  · have hff := valBytes_replicate_ones (4 * n - b.length)
    have hpos : 0 < 2 ^ (8 * b.length) := by positivity
    have e : (valBytes b : Int) - 2 ^ (8 * b.length) =
        ((valBytes b + (2 ^ (32 * n) - 2 ^ (8 * b.length)) : Nat) : Int) - ((2 ^ (32 * n) : Nat) : Int) := by
      push_cast [hle]
      ring
    rw [bval_of_negative hb, bridgePad, hb, if_pos rfl, e, Int.sub_emod_right]
    norm_cast
    rw [Nat.mod_eq_of_lt (by omega), hp, ← hff, Nat.mul_add]
    simp

/-- The flag FROMBRIDGE answers with (R172). -/
theorem flagOf_fromBridge (sg : Signedness) (s : State) :
    flagOf (.fromBridge sg) s = some (fromBridge sg s.limbCount s.request.bin).isSome := by
  rw [flagOf, show exec (.fromBridge sg) s = _ from execFromBridge_eq sg s]
  cases fromBridge sg s.limbCount s.request.bin <;> rfl

/-- The vector FROMBRIDGE answers with (R172). -/
theorem resultOf_fromBridge (sg : Signedness) (s : State) :
    resultOf (.fromBridge sg) s = some ((fromBridge sg s.limbCount s.request.bin).getD (zeroVec s.limbCount)) := by
  rw [resultOf, show exec (.fromBridge sg) s = _ from execFromBridge_eq sg s]
  cases fromBridge sg s.limbCount s.request.bin <;> rfl

end Sys2Proof.Machine
end

