-- ==== Sys2Proof/Laws/Ordering.lean ====
section
/-! SUPPORT. The comparison loop computes the order of the unsigned values (43_ordering.md R150). -/

namespace Sys2Proof.Machine

theorem orderOfValues_cast (x y : Nat) :
    orderOfValues (x : Int) (y : Int) = if x < y then .less else if x = y then .equal else .greater := by
  simp [orderOfValues]

/-- "the lexicographic order of the limbs from the top" is the order of val_u (R150). -/
theorem compareDown_eq (a b : LimbVec) (n : Nat) :
    compareDown a b n = orderOfValues (valU (build n (limb a))) (valU (build n (limb b))) := by
  induction n with
  | zero => simp [compareDown, build, orderOfValues]
  | succ n ih =>
    have ha := valU_lt_of_length (length_build n (limb a))
    have hb := valU_lt_of_length (length_build n (limb b))
    rw [compareDown, ih, orderOfValues_cast, orderOfValues_cast, valU_build_succ, valU_build_succ]
    by_cases h : limb a n = limb b n
    · simp [h]
    · have hne : (limb a n).toNat ≠ (limb b n).toNat := fun hc => h (BitVec.eq_of_toNat_eq hc)
      rw [if_pos h]
      rcases Nat.lt_or_gt_of_ne hne with hlt | hgt
      · have h2 : 2 ^ (32 * n) * ((limb a n).toNat + 1) ≤ 2 ^ (32 * n) * (limb b n).toNat := Nat.mul_le_mul_left _ hlt
        rw [Nat.mul_add] at h2
        rw [if_pos hlt, if_pos (by omega)]
      · have h2 : 2 ^ (32 * n) * ((limb b n).toNat + 1) ≤ 2 ^ (32 * n) * (limb a n).toNat := Nat.mul_le_mul_left _ hgt
        rw [Nat.mul_add] at h2
        rw [if_neg (by omega), if_neg (by omega), if_neg (by omega)]

/-- CMP's limb algorithm is the order of the numeric values under `sg` (R150). -/
theorem compareLimbs_eq {n : Nat} (sg : Signedness) {a b : LimbVec} (ha : a.length = n) (hb : b.length = n) :
    compareLimbs sg n a b = orderOfValues (val sg n a) (val sg n b) := by
  have hd := compareDown_eq a b n
  rw [build_limb ha, build_limb hb] at hd
  cases sg with
  | unsigned => exact hd
  | signed =>
    have hva : (valU a : Int) < 2 ^ (32 * n) := by exact_mod_cast valU_lt_of_length ha
    have hvb : (valU b : Int) < 2 ^ (32 * n) := by exact_mod_cast valU_lt_of_length hb
    simp only [compareLimbs, val, valS, hd]
    cases signbit n a <;> cases signbit n b <;> simp only [orderOfValues, ne_eq, not_true, not_false_iff, if_true, if_false,
      Bool.false_eq_true, reduceCtorEq, sub_zero, sub_lt_sub_iff_right, sub_left_inj]
    · rw [if_neg (by omega), if_neg (by omega)]
    · rw [if_pos (by omega)]

/-- EQ holds exactly of equal vectors (R155). -/
theorem equalLimbs_iff {n : Nat} {a b : LimbVec} (ha : a.length = n) (hb : b.length = n) :
    equalLimbs n a b = true ↔ a = b := by
  simp only [equalLimbs, List.all_eq_true, List.mem_range, beq_iff_eq]
  exact ⟨limbVec_ext ha hb, fun h i _ => by rw [h]⟩

end Sys2Proof.Machine
end

