-- ==== Sys2Proof/Laws/PerInstr.lean ====
section
/-! SUPPORT. One fact about every instruction as syntax, made instruction by instruction: the family CommandByte. -/

namespace Sys2Proof.Laws.CommandByte

/-- The command byte of an instruction is legal (R67), its bit 7 is the instruction's `sg` (R61), and the same operation
with the other `sg` differs from it by 0x80 only (R63: "`op` and `op + 0x80`"). -/
def Statement (i : Instr) : Prop :=
  legalCommand (encode i) = true ∧ sgField (encode i) = i.sg ∧
    encode (i.withSg .signed) = encode (i.withSg .unsigned) + 0x80

theorem fromLimbs (sg : Signedness) : Statement (.fromLimbs sg) := by cases sg <;> exact ⟨rfl, rfl, rfl⟩
theorem fromBytes (sg : Signedness) : Statement (.fromBytes sg) := by cases sg <;> exact ⟨rfl, rfl, rfl⟩
theorem toBytes (sg : Signedness) : Statement (.toBytes sg) := by cases sg <;> exact ⟨rfl, rfl, rfl⟩
theorem fromI32 (sg : Signedness) : Statement (.fromI32 sg) := by cases sg <;> exact ⟨rfl, rfl, rfl⟩
theorem fromU32 (sg : Signedness) : Statement (.fromU32 sg) := by cases sg <;> exact ⟨rfl, rfl, rfl⟩
theorem fromI64 (sg : Signedness) : Statement (.fromI64 sg) := by cases sg <;> exact ⟨rfl, rfl, rfl⟩
theorem fromU64 (sg : Signedness) : Statement (.fromU64 sg) := by cases sg <;> exact ⟨rfl, rfl, rfl⟩
theorem toBridge (sg : Signedness) : Statement (.toBridge sg) := by cases sg <;> exact ⟨rfl, rfl, rfl⟩
theorem fromBridge (sg : Signedness) : Statement (.fromBridge sg) := by cases sg <;> exact ⟨rfl, rfl, rfl⟩
theorem plus (sg : Signedness) : Statement (.plus sg) := by cases sg <;> exact ⟨rfl, rfl, rfl⟩
theorem neg (sg : Signedness) : Statement (.neg sg) := by cases sg <;> exact ⟨rfl, rfl, rfl⟩
theorem add (sg : Signedness) : Statement (.add sg) := by cases sg <;> exact ⟨rfl, rfl, rfl⟩
theorem sub (sg : Signedness) : Statement (.sub sg) := by cases sg <;> exact ⟨rfl, rfl, rfl⟩
theorem not (sg : Signedness) : Statement (.not sg) := by cases sg <;> exact ⟨rfl, rfl, rfl⟩
theorem and (sg : Signedness) : Statement (.and sg) := by cases sg <;> exact ⟨rfl, rfl, rfl⟩
theorem or (sg : Signedness) : Statement (.or sg) := by cases sg <;> exact ⟨rfl, rfl, rfl⟩
theorem xor (sg : Signedness) : Statement (.xor sg) := by cases sg <;> exact ⟨rfl, rfl, rfl⟩
theorem mul (sg : Signedness) : Statement (.mul sg) := by cases sg <;> exact ⟨rfl, rfl, rfl⟩
theorem div (sg : Signedness) : Statement (.div sg) := by cases sg <;> exact ⟨rfl, rfl, rfl⟩
theorem mod (sg : Signedness) : Statement (.mod sg) := by cases sg <;> exact ⟨rfl, rfl, rfl⟩
theorem shl (sg : Signedness) : Statement (.shl sg) := by cases sg <;> exact ⟨rfl, rfl, rfl⟩
theorem shr (sg : Signedness) : Statement (.shr sg) := by cases sg <;> exact ⟨rfl, rfl, rfl⟩
theorem cmp (sg : Signedness) : Statement (.cmp sg) := by cases sg <;> exact ⟨rfl, rfl, rfl⟩
theorem lt (sg : Signedness) : Statement (.lt sg) := by cases sg <;> exact ⟨rfl, rfl, rfl⟩
theorem le (sg : Signedness) : Statement (.le sg) := by cases sg <;> exact ⟨rfl, rfl, rfl⟩
theorem gt (sg : Signedness) : Statement (.gt sg) := by cases sg <;> exact ⟨rfl, rfl, rfl⟩
theorem ge (sg : Signedness) : Statement (.ge sg) := by cases sg <;> exact ⟨rfl, rfl, rfl⟩
theorem eq (sg : Signedness) : Statement (.eq sg) := by cases sg <;> exact ⟨rfl, rfl, rfl⟩

end Sys2Proof.Laws.CommandByte
end

