-- ==== Sys2Proof/Laws/Ports.lean ====
section
/-! SUPPORT. The packed ports bit by bit (30_encoding.md R64), and the answer to a request that is issued alone. -/

namespace Sys2Proof.Machine

/-- Bit p of a packed port after m limbs have been placed (R64). -/
theorem packLimbs_prefix (n : Nat) (v : LimbVec) {m : Nat} (p : Nat) (hm : m ≤ n) :
    ((List.range m).foldl (fun acc i => acc ||| ((v.getD i 0).setWidth (32 * n) <<< (32 * i)))
      (0 : BitVec (32 * n))).getLsbD p = (decide (p < 32 * m) && (limb v (p / 32)).getLsbD (p % 32)) := by
  induction m with
  | zero => simp
  | succ m ih =>
    rw [List.range_succ, List.foldl_append, List.foldl_cons, List.foldl_nil, BitVec.getLsbD_or, ih (by omega),
      BitVec.getLsbD_shiftLeft, BitVec.getLsbD_setWidth]
    change (_ || (_ && (_ && (limb v m).getLsbD (p - 32 * m)))) = _
    by_cases h1 : p < 32 * m
    · simp [h1, show p < 32 * (m + 1) by omega]
    · by_cases h2 : p < 32 * (m + 1)
      · rw [show p / 32 = m by omega, show p % 32 = p - 32 * m by omega]
        simp [h1, h2, show p < 32 * n by omega, show p - 32 * m < 32 * n by omega]
      · rw [BitVec.getLsbD_of_ge (limb v m) (p - 32 * m) (by omega)]
        simp [h1, h2]

/-- Bit p of a packed port is bit p mod 32 of limb p div 32 (R64). -/
theorem packLimbs_getLsbD (n : Nat) (v : LimbVec) (p : Nat) :
    (packLimbs n v).getLsbD p = (decide (p < 32 * n) && (limb v (p / 32)).getLsbD (p % 32)) :=
  packLimbs_prefix n v p le_rfl

/-- Limb i of an unpacked port (R64). -/
theorem limb_unpackLimbs {n : Nat} (b : BitVec (32 * n)) {i : Nat} (hi : i < n) :
    limb (unpackLimbs n b) i = b.extractLsb' (32 * i) 32 := limb_build n _ i hi

@[simp] theorem length_unpackLimbs {n : Nat} (b : BitVec (32 * n)) : (unpackLimbs n b).length = n := by
  simp [unpackLimbs]

/-- The request of an instruction, issued alone, is answered by that instruction (R51, R71). -/
theorem answerAlone_forInstr (w : Width) (i : Instr) (r : Request) (hd : decode (encode i) = .ok i) :
    answerAlone w (Request.forInstr i r) = responseOf (exec i ((State.resetOf w).taking (Request.forInstr i r))) := by
  have hc : decode ((State.resetOf w).taking (Request.forInstr i r)).request.cmd = .ok i := hd
  rw [answerAlone, present_of_not_pending rfl, Option.bind_some, step, hc]
  rfl

end Sys2Proof.Machine
end

