-- ==== Sys2Proof/Laws/Shift.lean ====
section
/-! SUPPORT. The shifter bit by bit (42_shift.md): "every one of the W result bits at position p is bit p + amt of the
operand …, and is the fill bit otherwise" (R133), and the mirror statement for SHL. -/

namespace Sys2Proof.Machine

/-- amt = 32·k + s (R130). -/
theorem amount_split (amt : BitVec 32) : 32 * limbOffset amt + (bitOffset amt).val = amt.toNat := by
  simp only [limbOffset, bitOffset]
  omega

theorem limb_getLsbD (a : LimbVec) (i q : Nat) (hq : q < 32) :
    (limb a i).getLsbD q = (valU a).testBit (32 * i + q) := by
  rw [valU_testBit]
  congr 2 <;> omega

/-- Bit q of limb j of a left shift by k limbs and s bits is bit 32·j + q − amt of the operand (R132). -/
theorem shlLimb_getLsbD (a : LimbVec) (k : Nat) (s : Fin 32) (j q : Nat) (hq : q < 32) :
    (shlLimb a k s j).getLsbD q =
      (decide (32 * k + s.val ≤ 32 * j + q) && (valU a).testBit (32 * j + q - (32 * k + s.val))) := by
  have hs := s.isLt
  unfold shlLimb
  split
  · rename_i h
    simp [show ¬ 32 * k + s.val ≤ 32 * j + q by omega]
  split
  · rename_i h
    subst h
    rw [shl32, BitVec.getLsbD_shiftLeft]
    by_cases hsq : s.val ≤ q
    · rw [limb_getLsbD _ _ _ (by omega)]
      simp [hq, hsq, show 32 * j + q - (32 * j + s.val) = q - s.val by omega]
    · simp [show q < s.val by omega, hsq]
  split
  · rename_i h0
    subst h0
    rw [shl32, BitVec.getLsbD_shiftLeft, limb_getLsbD _ _ _ (by simpa using hq)]
    simp [hq, show 32 * k ≤ 32 * j + q by omega, show 32 * (j - k) + q = 32 * j + q - 32 * k by omega]
  · rename_i h1 h2 h0
    have hs0 : s.val ≠ 0 := fun h => h0 (Fin.ext h)
    rw [BitVec.getLsbD_or, shl32, shr32, BitVec.getLsbD_shiftLeft, BitVec.getLsbD_ushiftRight]
    simp only [coDistance]
    by_cases hsq : s.val ≤ q
    · rw [BitVec.getLsbD_of_ge _ _ (by omega : 32 ≤ 32 - s.val + q), limb_getLsbD _ _ _ (by omega)]
      simp [hq, show ¬ q < s.val by omega, show 32 * k + s.val ≤ 32 * j + q by omega,
        show 32 * (j - k) + (q - s.val) = 32 * j + q - (32 * k + s.val) by omega]
    · rw [limb_getLsbD a (j - k - 1) _ (by omega)]
      simp [show q < s.val by omega, show 32 * k + s.val ≤ 32 * j + q by omega,
        show 32 * (j - k - 1) + (32 - s.val + q) = 32 * j + q - (32 * k + s.val) by omega]

/-- Bit q of limb i of the operand "continued upward by limbs of sign" (R131). -/
theorem ext_getLsbD (n : Nat) (a : LimbVec) (b : Bool) (i q : Nat) (hq : q < 32) :
    (ext n a (fillLimb b) i).getLsbD q = if 32 * i + q < 32 * n then (valU a).testBit (32 * i + q) else b := by
  unfold ext
  by_cases h : i < n
  · rw [if_pos h, if_pos (by omega), limb_getLsbD _ _ _ hq]
  · rw [if_neg h, if_neg (by omega)]
    cases b
    · simp [fillLimb]
    · rw [fillLimb, if_pos rfl, show (0xFFFFFFFF : Limb) = BitVec.allOnes 32 from rfl, BitVec.getLsbD_allOnes]
      simpa using hq

/-- Bit q of limb j of a right shift by k limbs and s bits is bit 32·j + q + amt of the continued operand (R133). -/
theorem shrLimb_getLsbD (n : Nat) (a : LimbVec) (b : Bool) (k : Nat) (s : Fin 32) (j q : Nat) (hq : q < 32) :
    (shrLimb n a (fillLimb b) k s j).getLsbD q =
      if 32 * j + q + (32 * k + s.val) < 32 * n then (valU a).testBit (32 * j + q + (32 * k + s.val)) else b := by
  have hs := s.isLt
  unfold shrLimb
  split
  · rename_i h0
    subst h0
    rw [ext_getLsbD _ _ _ _ _ hq]
    simp [show 32 * (j + k) + q = 32 * j + q + 32 * k by omega]
  · rename_i h0
    have hs0 : s.val ≠ 0 := fun h => h0 (Fin.ext h)
    rw [BitVec.getLsbD_or, shl32, shr32, BitVec.getLsbD_shiftLeft, BitVec.getLsbD_ushiftRight]
    simp only [coDistance]
    by_cases hsq : s.val + q < 32
    · rw [ext_getLsbD _ _ _ _ _ hsq]
      simp [hq, show q < 32 - s.val by omega, show 32 * (j + k) + (s.val + q) = 32 * j + q + (32 * k + s.val) by omega]
    · rw [BitVec.getLsbD_of_ge _ _ (by omega : 32 ≤ s.val + q), ext_getLsbD _ _ _ _ _ (by omega)]
      simp [hq, show ¬ q < 32 - s.val by omega,
        show 32 * (j + k + 1) + (q - (32 - s.val)) = 32 * j + q + (32 * k + s.val) by omega]

/-- The fill of R131, with the choice of `sg` and the sign bit in one condition. -/
theorem shiftFill_eq (sg : Signedness) (n : Nat) (a : LimbVec) :
    shiftFill sg n a = fillLimb (decide (sg = .signed) && signbit n a) := by
  cases sg
  · rfl
  · simp [shiftFill]

@[simp] theorem length_shlLimbs (n : Nat) (a : LimbVec) (amt : BitVec 32) : (shlLimbs n a amt).length = n :=
  length_build ..
@[simp] theorem length_shrLimbs (sg : Signedness) (n : Nat) (a : LimbVec) (amt : BitVec 32) :
    (shrLimbs sg n a amt).length = n := length_build ..

/-- Everything a left shift computes, bit by bit (R132). -/
theorem testBit_shlLimbs (n : Nat) (a : LimbVec) (amt : BitVec 32) (p : Nat) :
    (valU (shlLimbs n a amt)).testBit p =
      (decide (p < 32 * n) && (decide (amt.toNat ≤ p) && (valU a).testBit (p - amt.toNat))) := by
  rw [valU_testBit]
  by_cases h : p < 32 * n
  · rw [shlLimbs, limb_build _ _ _ (by omega), shlLimb_getLsbD _ _ _ _ _ (Nat.mod_lt _ (by omega)), amount_split]
    simp [h, show 32 * (p / 32) + p % 32 = p by omega]
  · simp [h, limb, List.getD_eq_getElem?_getD, shlLimbs, build, show n ≤ p / 32 by omega]

/-- Everything a right shift computes, bit by bit (R133). -/
theorem testBit_shrLimbs (sg : Signedness) (n : Nat) (a : LimbVec) (amt : BitVec 32) (p : Nat) :
    (valU (shrLimbs sg n a amt)).testBit p = (decide (p < 32 * n) &&
      if p + amt.toNat < 32 * n then (valU a).testBit (p + amt.toNat)
      else (decide (sg = .signed) && signbit n a)) := by
  rw [valU_testBit]
  by_cases h : p < 32 * n
  · rw [shrLimbs, shiftFill_eq, limb_build _ _ _ (by omega), shrLimb_getLsbD _ _ _ _ _ _ _ (Nat.mod_lt _ (by omega)),
      amount_split]
    simp [h, show 32 * (p / 32) + p % 32 = p by omega]
  · simp [h, limb, List.getD_eq_getElem?_getD, shrLimbs, build, show n ≤ p / 32 by omega]

/-! The scatter forms: one contribution to the scratch result. -/

@[simp] theorem length_orInto (r : LimbVec) (j : Nat) (x : Limb) : (orInto r j x).length = r.length := by simp [orInto]

theorem limb_orInto (r : LimbVec) (i : Nat) {j : Nat} (x : Limb) (h : j < r.length) :
    limb (orInto r j x) i = if i = j then limb r i ||| x else limb r i := by
  unfold orInto limb
  simp only [List.getD_eq_getElem?_getD, List.getElem?_set]
  split
  · rename_i e
    subst e
    simp [h]
  · rename_i e
    simp [Ne.symm e]

@[simp] theorem length_scatterLeft (n : Nat) (a : LimbVec) (k : Nat) (s : Fin 32) (r : LimbVec) (i : Nat) :
    (scatterLeft n a k s r i).length = r.length := by
  unfold scatterLeft
  dsimp only
  split <;> split <;> (try split) <;> simp

@[simp] theorem length_scatterRight (a : LimbVec) (k : Nat) (s : Fin 32) (r : LimbVec) (i : Nat) :
    (scatterRight a k s r i).length = r.length := by
  unfold scatterRight
  dsimp only
  split <;> split <;> (try split) <;> simp

theorem limb_zeroVec (n i : Nat) : limb (zeroVec n) i = 0 := by
  unfold zeroVec limb build
  simp only [List.getD_eq_getElem?_getD, List.getElem?_map]
  cases (List.range n)[i]? <;> rfl

/-- A limb of the fill, shifted down and completed from a fill limb above, is the fill (R133). -/
theorem fillLimb_shifted (b : Bool) (s : Fin 32) (h : s ≠ 0) :
    shr32 (fillLimb b) s ||| shl32 (fillLimb b) (coDistance s h) = fillLimb b := by
  revert s
  cases b <;> decide

end Sys2Proof.Machine
end

