-- ==== Sys2Proof/Tests/Slice0.lean ====
section
/-! SUPPORT. The implementer's own tests: ill-formed terms refused, command words written out from R61 and R63, at most two
steps per operation with results taken from spec/95_test_vectors.md (S… and V…) and the rules' own examples, and one
witness for every statement that has hypotheses. -/

namespace Sys2Proof.Tests

open Sys2Proof Sys2Proof.Machine

/-! Small states. -/

/-- A request on a 128-bit instance with two limb vectors. -/
def onAB (cmd : Byte) (a b : LimbVec) : State :=
  (State.resetOf .w128).taking { Request.atReset 4 with cmd := cmd, A := a, B := b }

/-- A shift request on a 128-bit instance. -/
def onShift (cmd : Byte) (a : LimbVec) (amt : BitVec 32) : State :=
  (State.resetOf .w128).taking { Request.atReset 4 with cmd := cmd, A := a, amt := amt }

/-- A native-integer request on a 128-bit instance. -/
def onNat (cmd : Byte) (x : BitVec 64) : State :=
  (State.resetOf .w128).taking { Request.atReset 4 with cmd := cmd, nat := x }

/-- A byte-sequence request on an instance of width `w`. -/
def onBin (w : Width) (cmd : Byte) (b : ByteSeq) : State :=
  (State.resetOf w).taking { Request.atReset w.limbs with cmd := cmd, bin := b }

/-- The response on the ports after one step. -/
def answer (s : State) : Option Response := responseOf (step s)

def vecX : LimbVec := [0x89ABCDEF, 0x01234567, 0xFEDCBA98, 0x76543210]
def vecXn : LimbVec := [0x89ABCDEF, 0x01234567, 0xFEDCBA98, 0xF6543210]
def vecY : LimbVec := [0x11111111, 0xFFFFFFFF, 0x00000001, 0x12345678]
def vecZero : LimbVec := [0, 0, 0, 0]
def vecOne : LimbVec := [1, 0, 0, 0]
def vecOnes : LimbVec := [0xFFFFFFFF, 0xFFFFFFFF, 0xFFFFFFFF, 0xFFFFFFFF]
def vecMinS : LimbVec := [0, 0, 0, 0x80000000]
def vecMaxS : LimbVec := [0xFFFFFFFF, 0xFFFFFFFF, 0xFFFFFFFF, 0x7FFFFFFF]
def bytesX : ByteSeq :=
  [0xEF, 0xCD, 0xAB, 0x89, 0x67, 0x45, 0x23, 0x01, 0x98, 0xBA, 0xDC, 0xFE, 0x10, 0x32, 0x54, 0x76]
def bytesMinS : ByteSeq := [0, 0, 0, 0, 0, 0, 0, 0, 0, 0, 0, 0, 0, 0, 0, 0x80]
def maskA : LimbVec := [0xFFFF0000, 0x12345678, 0, 0xFFFFFFFF]
def maskB : LimbVec := [0x0FF00FF0, 0xFFFFFFFF, 0xFFFFFFFF, 0x80000000]

/-! Smoke tests: each check refuses an ill-formed term (R67, V182 to V187; R26). -/

theorem test_wf_refuses_reserved_bit : legalCommand 0x52 = false := by decide
theorem test_wf_refuses_reserved_ops :
    legalCommand 0x09 = false ∧ legalCommand 0x1B = false ∧ legalCommand 0x22 = false ∧ legalCommand 0x36 = false ∧
      legalCommand 0xBF = false := by decide
theorem test_wf_refuses_short_A : ¬ ({ Request.atReset 4 with A := [0, 0, 0] } : Request).wf 4 := by decide
theorem test_wf_refuses_long_B : ¬ ({ Request.atReset 4 with B := [0, 0, 0, 0, 0] } : Request).wf 4 := by decide
theorem test_wf_refuses_over_long_bin :
    ¬ ({ Request.atReset 4 with bin := List.replicate 65536 0 } : Request).wf 4 := by
  intro h
  have h2 := h.2.2
  rw [Request.blen, List.length_replicate] at h2
  exact absurd h2 (by decide)
theorem test_wf_canonical_omits_unread_sg :
    Instr.canonical (.add .signed) = false ∧ Instr.canonical (.shr .signed) = true := by decide

/-! Command words written out bit by bit: `sg`, `rsv`, `op` (R61, R63). -/

theorem test_decode_group0 :
    decode 0b0_0_000000#8 = .ok (.fromLimbs .unsigned) ∧ decode 0b0_0_000001#8 = .ok (.fromBytes .unsigned) ∧
    decode 0b0_0_000010#8 = .ok (.toBytes .unsigned) ∧ decode 0b0_0_000011#8 = .ok (.fromI32 .unsigned) ∧
    decode 0b0_0_000100#8 = .ok (.fromU32 .unsigned) ∧ decode 0b0_0_000101#8 = .ok (.fromI64 .unsigned) ∧
    decode 0b0_0_000110#8 = .ok (.fromU64 .unsigned) ∧ decode 0b1_0_000111#8 = .ok (.toBridge .signed) ∧
    decode 0b1_0_001000#8 = .ok (.fromBridge .signed) := by decide
theorem test_decode_group1 :
    decode 0b0_0_010000#8 = .ok (.plus .unsigned) ∧ decode 0b0_0_010001#8 = .ok (.neg .unsigned) ∧
    decode 0b1_0_010010#8 = .ok (.add .signed) ∧ decode 0b0_0_010011#8 = .ok (.sub .unsigned) ∧
    decode 0b0_0_010100#8 = .ok (.not .unsigned) ∧ decode 0b0_0_010101#8 = .ok (.and .unsigned) ∧
    decode 0b0_0_010110#8 = .ok (.or .unsigned) ∧ decode 0b0_0_010111#8 = .ok (.xor .unsigned) ∧
    decode 0b1_0_011000#8 = .ok (.mul .signed) ∧ decode 0b0_0_011001#8 = .ok (.div .unsigned) ∧
    decode 0b0_0_011010#8 = .ok (.mod .unsigned) := by decide
theorem test_decode_group2 :
    decode 0b0_0_100000#8 = .ok (.shl .unsigned) ∧ decode 0b1_0_100001#8 = .ok (.shr .signed) := by decide
theorem test_decode_group3 :
    decode 0b1_0_110000#8 = .ok (.cmp .signed) ∧ decode 0b0_0_110001#8 = .ok (.lt .unsigned) ∧
    decode 0b0_0_110010#8 = .ok (.le .unsigned) ∧ decode 0b0_0_110011#8 = .ok (.gt .unsigned) ∧
    decode 0b0_0_110100#8 = .ok (.ge .unsigned) ∧ decode 0b0_0_110101#8 = .ok (.eq .unsigned) := by decide
theorem test_decode_rejects_by_name :
    decode 0x52 = .error .reservedBit ∧ decode 0x49 = .error .reservedBit ∧ decode 0x3F = .error .reservedOp := by
  decide
theorem test_table_word_runs_after_reset :
    decodeTableWord 8 0x18 = some (.mul .unsigned) ∧
      responseOf (step (State.reset.withFetchWord 8 0x18)) = some (.signal .notImplemented) := by decide

/-! One or two steps per operation. -/

theorem test_fromLimbs : answer (onAB 0x80 [0xDEADBEEF, 0, 0xFFFFFFFF, 0x80000000] vecZero) =
    some (.limbs [0xDEADBEEF, 0, 0xFFFFFFFF, 0x80000000]) := by decide   -- V10
theorem test_fromBytes : answer (onBin .w128 0x01 bytesX) = some (.limbs vecX) := by decide   -- V1
theorem test_fromBytes_short_on_w160 :
    answer (onBin .w160 0x01 bytesX) = some (.signal .invalidArgument) := by decide   -- V8
theorem test_toBytes : answer (onAB 0x02 vecX vecZero) = some (.bytes bytesX) := by decide   -- V2
theorem test_fromI32 : answer (onNat 0x03 0xFFFFFFFF80000000) =
    some (.limbs [0x80000000, 0xFFFFFFFF, 0xFFFFFFFF, 0xFFFFFFFF]) := by decide   -- V13, upper half ignored
theorem test_fromI32_upper_half_ignored :
    answer (onNat 0x83 0xFFFFFFFF00000005) = some (.limbs [5, 0, 0, 0]) := by decide   -- V15
theorem test_fromU32 : answer (onNat 0x04 0xFFFFFFFE) = some (.limbs [0xFFFFFFFE, 0, 0, 0]) := by decide   -- V12
theorem test_fromI64 : answer (onNat 0x05 0x8000000000000000) =
    some (.limbs [0, 0x80000000, 0xFFFFFFFF, 0xFFFFFFFF]) := by decide   -- V17
theorem test_fromU64 : answer (onNat 0x06 0x8000000000000000) =
    some (.limbs [0, 0x80000000, 0, 0]) := by decide   -- V18
theorem test_toBridge_unsigned : answer (onAB 0x07 vecMinS vecZero) = some (.bytes (bytesMinS ++ [0])) := by
  decide   -- V160
theorem test_toBridge_signed : answer (onAB 0x87 vecMinS vecZero) = some (.bytes bytesMinS) := by decide   -- V161
theorem test_fromBridge_negative : answer (onBin .w128 0x88 [0x00, 0x80]) =
    some (.limbsFlag [0xFFFF8000, 0xFFFFFFFF, 0xFFFFFFFF, 0xFFFFFFFF] true) := by decide   -- V170
theorem test_fromBridge_needless_zero :
    answer (onBin .w128 0x08 (List.replicate 17 0)) = some (.limbsFlag vecZero false) := by decide   -- V174
theorem test_plus : answer (onAB 0x10 [0x80000000, 0, 0, 0x80000000] vecY) =
    some (.limbs [0x80000000, 0, 0, 0x80000000]) := by decide   -- R100
theorem test_neg : answer (onAB 0x11 vecX vecZero) =
    some (.limbs [0x76543211, 0xFEDCBA98, 0x01234567, 0x89ABCDEF]) := by decide   -- V47
theorem test_neg_minS : answer (onAB 0x91 vecMinS vecZero) = some (.limbs vecMinS) := by decide   -- V44
theorem test_add_wraps : answer (onAB 0x12 vecOne vecOnes) = some (.limbs vecZero) := by decide   -- S8
theorem test_add : answer (onAB 0x92 vecX vecY) =
    some (.limbs [0x9ABCDF00, 0x01234566, 0xFEDCBA9A, 0x88888888]) := by decide   -- V34
theorem test_sub : answer (onAB 0x13 vecX vecY) =
    some (.limbs [0x789ABCDE, 0x01234568, 0xFEDCBA96, 0x641FDB98]) := by decide   -- V39
theorem test_sub_wraps : answer (onAB 0x13 vecMinS vecOne) = some (.limbs vecMaxS) := by decide   -- V36
theorem test_not : answer (onAB 0x14 [0x0000FFFF, 0, 0xFFFFFFFF, 0x7FFFFFFF] vecZero) =
    some (.limbs [0xFFFF0000, 0xFFFFFFFF, 0, 0x80000000]) := by decide   -- V49
theorem test_and : answer (onAB 0x15 maskA maskB) =
    some (.limbs [0x0FF00000, 0x12345678, 0, 0x80000000]) := by decide   -- V50
theorem test_or : answer (onAB 0x16 maskA maskB) =
    some (.limbs [0xFFFF0FF0, 0xFFFFFFFF, 0xFFFFFFFF, 0xFFFFFFFF]) := by decide   -- V51
theorem test_xor : answer (onAB 0x17 maskA maskB) =
    some (.limbs [0xF00F0FF0, 0xEDCBA987, 0xFFFFFFFF, 0x7FFFFFFF]) := by decide   -- V52
theorem test_mul : answer (onAB 0x18 [2, 0, 0, 0] [3, 0, 0, 0]) = some (.signal .notImplemented) := by
  decide   -- V53
theorem test_div : answer (onAB 0x19 [6, 0, 0, 0] vecZero) = some (.signal .notImplemented) := by decide   -- V54
theorem test_mod : answer (onAB 0x1A [7, 0, 0, 0] [3, 0, 0, 0]) = some (.signal .notImplemented) := by
  decide   -- V55
theorem test_shl : answer (onShift 0x20 vecX 36) =
    some (.limbs [0, 0x9ABCDEF0, 0x12345678, 0xEDCBA980]) := by decide   -- V76
theorem test_shl_whole_limb : answer (onShift 0xA0 vecX 32) =
    some (.limbs [0, 0x89ABCDEF, 0x01234567, 0xFEDCBA98]) := by decide   -- V74
theorem test_shr_signed : answer (onShift 0xA1 vecXn 33) =
    some (.limbs [0x0091A2B3, 0x7F6E5D4C, 0xFB2A1908, 0xFFFFFFFF]) := by decide   -- V95
theorem test_shr_unsigned : answer (onShift 0x21 vecXn 33) =
    some (.limbs [0x0091A2B3, 0x7F6E5D4C, 0x7B2A1908, 0]) := by decide   -- V95
theorem test_cmp_signed : answer (onAB 0xB0 vecMinS vecMaxS) = some (.order .less) := by decide   -- V140
theorem test_cmp_unsigned : answer (onAB 0x30 vecMinS vecMaxS) = some (.order .greater) := by decide   -- V140
theorem test_lt : answer (onAB 0xB1 vecOnes vecZero) = some (.truth true) := by decide   -- V142
theorem test_lt_equal : answer (onAB 0x31 vecX vecX) = some (.truth false) := by decide   -- V145's row
theorem test_le : answer (onAB 0x32 vecOnes vecZero) = some (.truth false) := by decide   -- V142
theorem test_le_equal : answer (onAB 0xB2 vecX vecX) = some (.truth true) := by decide   -- V145's row
theorem test_gt : answer (onAB 0x33 [0, 0, 0, 1] [0xFFFFFFFF, 0xFFFFFFFF, 0xFFFFFFFF, 0]) = some (.truth true) := by
  decide   -- V147
theorem test_gt_equal : answer (onAB 0xB3 vecX vecX) = some (.truth false) := by decide   -- V145's row
theorem test_ge : answer (onAB 0xB4 vecOnes vecZero) = some (.truth false) := by decide   -- V142
theorem test_ge_equal : answer (onAB 0x34 vecX vecX) = some (.truth true) := by decide   -- V145's row
theorem test_eq : answer (onAB 0xB5 [1, 0, 0, 0] [1, 0, 0, 1]) = some (.truth false) := by decide   -- R155
theorem test_eq_equal : answer (onAB 0x35 vecX vecX) = some (.truth true) := by decide   -- V145's row

/-! The machine around the operations. -/

theorem test_illegal_byte : answer (onAB 0x49 vecX vecY) = some (.signal .illegalRequest) := by decide   -- program 3
theorem test_idle_after_reset : responseOf (step State.reset) = none := by decide   -- R35
theorem test_reset_discards : responseOf (step (onAB 0x12 vecX vecY).applyReset) = none := by decide   -- R210
theorem test_signal_leaves_nothing : serve State.reset [(onAB 0x18 vecX vecY).request, (onAB 0x13 vecX vecX).request] =
    [some (.signal .notImplemented), some (.limbs vecZero)] := by decide   -- program 3, steps 5 and 10
theorem test_two_instances :
    (issueTo (issueTo [State.resetOf .w160, State.resetOf .w128] 0 (onBin .w160 0x01 bytesX).request) 1
      (onAB 0x12 vecX vecY).request).map State.response =
      [some (.signal .invalidArgument), some (.limbs [0x9ABCDF00, 0x01234566, 0xFEDCBA9A, 0x88888888])] := by
  decide   -- V8, V34
theorem test_reference_comparison : cmpRef 4 vecMinS vecOne = .greater ∧ cmpRef 4 vecZero vecOnes = .greater := by
  decide   -- V144, V143
theorem test_scatter_forms : shlScatter 4 vecX 36 = [0, 0x9ABCDEF0, 0x12345678, 0xEDCBA980] ∧
    shrScatter .signed 4 vecXn 33 = [0x0091A2B3, 0x7F6E5D4C, 0xFB2A1908, 0xFFFFFFFF] := by decide   -- V76, V95
theorem test_pending_ports_hold :
    (onAB 0x12 vecX vecY).present (onAB 0x13 vecY vecX).request = none ∧
      (onAB 0x12 vecX vecY).move (.issue (onAB 0x13 vecY vecX).request) = none := by decide   -- R52
theorem test_place_over_pending :
    answer ((onAB 0x12 vecX vecY).withFetchWord 8 0x10) = some (.limbs vecX) ∧
      ((onAB 0x12 vecX vecY).applyReset.present { (onAB 0x12 vecX vecY).request with cmd := 0x10 }) =
        some ((onAB 0x12 vecX vecY).withFetchWord 8 0x10) := by decide   -- R52, R210, R100
theorem test_pack_response :
    packResponse 4 (.order .less) =
      { status := 0b00, R := none, ord := some 0b11, flag := none, bolen := none, bout := none } ∧
    (packResponse 4 (.bytes bytesX)).bolen = some 16 ∧
    (packResponse 4 (.limbsFlag vecX true)).R = some 0x76543210FEDCBA980123456789ABCDEF#128 ∧
    (packResponse 4 (.limbsFlag vecX true)).flag = some 1 ∧
    (packResponse 4 (.signal .notImplemented)).status = 0b10 := by decide   -- R64, R65, R68
theorem test_pack : packLimbs 4 vecX = 0x76543210FEDCBA980123456789ABCDEF#128 := by decide   -- R64

/-! Witnesses: for every statement with hypotheses, operands that meet all of them. -/

theorem witness_DecodeAndEncodeAgreeOnCommandBytes : decode 0xB5 = .ok (.eq .signed) := by decide
theorem witness_PackedPortIsTheUnsignedValue : vecX.length = Width.limbs .w128 ∧ 3 < Width.limbs .w128 := by decide
theorem witness_RequestSurvivesEncodingAndDecoding :
    ({ Request.atReset 4 with A := vecX, B := vecY, bin := bytesX } : Request).wf (Width.limbs .w128) := by decide
theorem witness_ResponsePortsCarryTheirCodes :
    responseOf (exec (.cmp .signed) (onAB 0xB0 vecMinS vecMaxS)) = some (.order .less) ∧
      (Response.order .less).ord ≠ none := by decide
theorem witness_StepExecutesTheDecodedInstruction :
    (onAB 0x12 vecX vecY).pending = true ∧ decode (onAB 0x12 vecX vecY).request.cmd = .ok (.add .unsigned) := by decide
theorem witness_PlacedTableWordIsTheNextCommand : decodeTableWord 8 0x12 = some (.add .unsigned) ∧
    State.reset.pending = false ∧ (onAB 0x12 vecX vecY).pending = true := by decide
theorem witness_StepWithoutRequestClearsResponse : State.reset.pending = false := by decide
theorem witness_IllegalCommandIsAnsweredIllegalRequest :
    (onAB 0x52 vecX vecY).pending = true ∧ (onAB 0x52 vecX vecY).request.cmd.getLsbD 6 = true ∧
    (∀ op ∈ [0x09, 0x0F, 0x1B, 0x1F, 0x22, 0x2F, 0x36, 0x3F],
      (0x09 ≤ op ∧ op ≤ 0x0F) ∨ (0x1B ≤ op ∧ op ≤ 0x1F) ∨ (0x22 ≤ op ∧ op ≤ 0x2F) ∨ 0x36 ≤ op) ∧
    (∀ op ∈ [0x00, 0x08, 0x10, 0x1A, 0x20, 0x21, 0x30, 0x35],
      ¬ ((0x09 ≤ op ∧ op ≤ 0x0F) ∨ (0x1B ≤ op ∧ op ≤ 0x1F) ∨ (0x22 ≤ op ∧ op ≤ 0x2F) ∨ 0x36 ≤ op)) := by decide
theorem witness_EveryRequestGetsOneFittingResponse : (onAB 0x12 vecX vecY).pending = true := by decide
theorem witness_StepChangesNeitherWidthNorRequestPorts : ∃ t, step (onAB 0x12 vecX vecY) = .next t := ⟨_, rfl⟩
theorem witness_StepKeepsThePortsConsistent :
    (onAB 0x12 vecX vecY).wf ∧ ∃ t, step (onAB 0x12 vecX vecY) = .next t :=
  ⟨⟨by decide, by intro r h; cases h⟩, _, rfl⟩
theorem witness_ResetAndHostMovesMeetTheInvariant :
    State.reset.wf ∧ (onAB 0x12 vecX vecY).request.wf State.reset.width.limbs ∧ State.reset.pending = false ∧
    State.reset.move (.issue (onAB 0x12 vecX vecY).request) = some (onAB 0x12 vecX vecY) ∧
    (onAB 0x12 vecX vecY).pending = true ∧
    (onAB 0x12 vecX vecY).move .reset = some (onAB 0x12 vecX vecY).applyReset :=
  ⟨⟨by decide, by intro r h; cases h⟩, by decide, by decide, by decide, by decide, by decide⟩
theorem witness_ResponsesOfARunAreThoseOfItsRequestsAlone : State.reset.pending = false ∧
    (onAB 0x12 vecX vecY).pending = true ∧ ∃ t, step (onAB 0x12 vecX vecY) = .next t :=
  ⟨by decide, by decide, _, rfl⟩
theorem witness_SignalsAreRaisedExactlyByTheirCauses :
    (onAB 0x98 vecX vecY).pending = true ∧ (onAB 0x40 vecX vecY).pending = true ∧
      (onBin .w512 0x01 bytesX).pending = true := by decide
theorem witness_AllOtherOperationsAlwaysAnswerOk :
    ∀ sg, Instr.sub .signed ≠ .fromBytes sg ∧ Instr.sub .signed ≠ .mul sg ∧ Instr.sub .signed ≠ .div sg ∧
      Instr.sub .signed ≠ .mod sg := by intro sg; cases sg <;> decide
theorem witness_FormatFixesThePortsReadAndWritten :
    (onAB 0x11 vecX vecY).width = (onAB 0x11 vecX vecZero).width ∧
      Request.agree (Instr.format (.neg .unsigned)) (onAB 0x11 vecX vecY).request (onAB 0x11 vecX vecZero).request :=
  ⟨rfl, rfl⟩
theorem witness_InstancesShareNothing : (0 : Nat) ≠ 1 ∧
    [State.reset, State.reset][0]? = some State.reset ∧ State.reset.pending = false ∧
    State.reset.present (onAB 0x12 vecX vecY).request = some (onAB 0x12 vecX vecY) := by decide
theorem witness_SignednessMattersToExactlyEightOperations :
    Instr.readsSg (.add .signed) = false ∧ Instr.readsSg (.shr .signed) = true := by decide
theorem witness_ResetDiscardsTheRequestAndKeepsTheWidth : ∃ t, step (onAB 0x12 vecX vecY).applyReset = .next t :=
  ⟨_, rfl⟩
theorem witness_FromBytesBuildsTheLittleEndianValue :
    (onBin .w128 0x01 bytesX).request.blen = 4 * (onBin .w128 0x01 bytesX).width.limbs ∧
    (onBin .w128 0x01 (bytesX ++ [0])).request.blen ≠ 4 * (onBin .w128 0x01 bytesX).width.limbs ∧
    (onBin .w128 0x01 (bytesX.take 15)).request.blen ≠ 4 * (onBin .w128 0x01 bytesX).width.limbs := by decide
theorem witness_FromLimbsAndPlusAreTheIdentity :
    (onAB 0x10 vecX vecY).request.A.length = (onAB 0x10 vecX vecY).width.limbs := by decide
theorem witness_Native32IsExtendedAsItsSourceSays : 1 < (onNat 0x03 0xFFFFFFFE).width.limbs ∧ 1 ≤ 3 := by decide
theorem witness_Native64IsExtendedAsItsSourceSays : 2 < (onNat 0x05 0xFFFFFFFE).width.limbs ∧ 2 ≤ 3 := by decide
theorem witness_NativeConstructorsAgree :
    (onNat 0x05 0xFFFFFFFFFFFFFFFE).width = (onNat 0x03 0xFFFFFFFE).width ∧
    (onNat 0x05 0xFFFFFFFFFFFFFFFE).request.nat = ((onNat 0x03 0xFFFFFFFE).request.nat.extractLsb' 0 32).signExtend 64 ∧
    (onNat 0x06 0xFFFFFFFE).request.nat = ((onNat 0x04 0xFFFFFFFE).request.nat.extractLsb' 0 32).setWidth 64 := by
  decide
theorem witness_ToBytesDeliversTheLayout : 3 < (onAB 0x02 vecX vecY).width.limbs ∧ 3 < 4 := by decide
theorem witness_BytesRoundTripRestoresTheValue :
    (onAB 0x02 vecX vecY).request.A.length = (onAB 0x02 vecX vecY).width.limbs ∧
      (onBin .w128 0x01 bytesX).width = (onAB 0x02 vecX vecY).width ∧
      responseOf (exec (.toBytes .unsigned) (onAB 0x02 vecX vecY)) =
        some (.bytes (onBin .w128 0x01 bytesX).request.bin) := by decide
theorem witness_ConstructedBytesAreRenderedBack :
    (onBin .w128 0x01 bytesX).request.blen = 4 * (onBin .w128 0x01 bytesX).width.limbs ∧
      (onAB 0x02 vecX vecY).width = (onBin .w128 0x01 bytesX).width ∧
      resultOf (.fromBytes .unsigned) (onBin .w128 0x01 bytesX) = some (onAB 0x02 vecX vecY).request.A := by decide
theorem witness_NegIsComplementPlusOne :
    ((onAB 0x11 vecZero vecY).request.A.length = (onAB 0x11 vecZero vecY).width.limbs ∧ vecZero = zeroVec 4) ∧
    ((onAB 0x11 vecMinS vecY).request.A.length = (onAB 0x11 vecMinS vecY).width.limbs ∧ vecMinS = minS 4) ∧
    ((onAB 0x11 vecOne vecY).request.A.length = (onAB 0x11 vecOne vecY).width.limbs ∧ vecOne = oneVec 4) := by decide
theorem witness_AddIsRippleCarry :
    ((onAB 0x12 vecOnes vecOne).request.wf (onAB 0x12 vecOnes vecOne).width.limbs ∧ vecOnes = maxU 4 ∧
      vecOne = oneVec 4 ∧ 3 < (onAB 0x12 vecOnes vecOne).width.limbs) ∧
    ((onAB 0x12 vecMaxS vecOne).request.wf (onAB 0x12 vecMaxS vecOne).width.limbs ∧ vecMaxS = maxS 4) ∧
    ((onAB 0x12 vecMinS vecMinS).request.wf (onAB 0x12 vecMinS vecMinS).width.limbs ∧ vecMinS = minS 4) := by decide
theorem witness_SubIsAdditionOfTheNegation :
    (onAB 0x13 vecX vecX).request.wf (onAB 0x13 vecX vecX).width.limbs ∧
    ((onAB 0x13 vecX vecZero).request.wf (onAB 0x13 vecX vecZero).width.limbs ∧ vecZero = zeroVec 4) ∧
    ((onAB 0x13 vecZero vecOne).request.wf (onAB 0x13 vecZero vecOne).width.limbs ∧ vecOne = oneVec 4) ∧
    ((onAB 0x13 vecMinS vecOne).request.wf (onAB 0x13 vecMinS vecOne).width.limbs ∧ vecMinS = minS 4) ∧
    (onAB 0x13 vecX vecMinS).request.wf (onAB 0x13 vecX vecMinS).width.limbs := by decide
theorem witness_ArithmeticValueLawsHold :
    (onAB 0x13 vecX vecY).request.wf (onAB 0x13 vecX vecY).width.limbs ∧
      (onAB 0x13 vecX vecY).request.A ≠ minS (onAB 0x13 vecX vecY).width.limbs := by decide
theorem witness_NotComplementsEveryLimb :
    (onAB 0x14 vecX vecY).request.A.length = (onAB 0x14 vecX vecY).width.limbs := by decide
theorem witness_AndOrXorWorkLimbByLimb : 3 < (onAB 0x15 maskA maskB).width.limbs := by decide
theorem witness_TwosComplementLawsHold :
    (onAB 0x11 vecOne vecY).request.A.length = (onAB 0x11 vecOne vecY).width.limbs ∧
      resultOf (.neg .unsigned) (onAB 0x11 vecOne vecY) = some vecOnes ∧
      resultOf (.not .unsigned) (onAB 0x11 vecOnes vecY) = some vecZero := by decide
theorem witness_ShlFollowsTheScatterAlgorithm :
    (onShift 0x20 vecX 36).request.A.length = (onShift 0x20 vecX 36).width.limbs := by decide
theorem witness_ShlLimbFormAndValueLawHold :
    (onShift 0x20 vecX 36).request.A.length = (onShift 0x20 vecX 36).width.limbs ∧
      (0 < 36 / 32 ∧ 1 = 36 / 32 ∧ 36 / 32 < 2 ∧ 36 % 32 ≠ 0 ∧ 32 % 32 = 0) := by decide
theorem witness_ShrFollowsItsLimbAndScatterForms :
    (onShift 0xA1 vecXn 33).request.A.length = (onShift 0xA1 vecXn 33).width.limbs ∧ signbit 4 vecXn = true ∧
      0 < (onShift 0xA1 vecXn 33).request.amt.toNat := by decide
theorem witness_ShrValueLawHolds :
    (onShift 0xA1 vecXn 33).request.A.length = (onShift 0xA1 vecXn 33).width.limbs := by decide
theorem witness_ShiftsByTheWidthOrMoreLeaveTheFill :
    (onShift 0xA1 vecXn 128).width.bits ≤ (onShift 0xA1 vecXn 128).request.amt.toNat ∧
      (onShift 0xA1 vecXn 0xFFFFFFFF).width.bits ≤ (onShift 0xA1 vecXn 0xFFFFFFFF).request.amt.toNat := by decide
theorem witness_ShiftLawsOfTheDocumentHold :
    vecX.length = (onShift 0x20 vecX 1).width.limbs ∧
      (96 : BitVec 32).toNat + (32 : BitVec 32).toNat ≤ (onShift 0x20 vecX 1).width.bits := by decide
theorem witness_ShiftsComposeUpToTheAmountLimit :
    vecX.length = (onShift 0x20 vecX 1).width.limbs ∧
      (0xFFFFFFFE : BitVec 32).toNat + (1 : BitVec 32).toNat < 2 ^ 32 := by decide
theorem witness_CmpIsTheOrderOfTheValues :
    (onAB 0xB0 vecMinS vecMaxS).request.wf (onAB 0xB0 vecMinS vecMaxS).width.limbs := by decide
theorem witness_RelationalOperatorsDeriveFromCmp :
    (onAB 0xB1 vecMinS vecMaxS).request.wf (onAB 0xB1 vecMinS vecMaxS).width.limbs := by decide
theorem witness_EqHoldsOfEqualVectorsOnly :
    (onAB 0x35 vecX vecX).request.wf (onAB 0x35 vecX vecX).width.limbs ∧
      (onAB 0x35 vecX vecY).request.wf (onAB 0x35 vecX vecY).width.limbs := by decide
theorem witness_EqAgreesWithCmpAndSub :
    (onAB 0x35 vecX vecX).request.wf (onAB 0x35 vecX vecX).width.limbs ∧
      flagOf (.eq .signed) (onAB 0x35 vecX vecX) = some true ∧
      flagOf (.eq .signed) (onAB 0x35 vecX vecY) = some false := by decide
theorem witness_OrderingIsAStrictTotalOrder :
    (vecMinS.length = State.reset.width.limbs ∧ vecZero.length = State.reset.width.limbs ∧
      vecMaxS.length = State.reset.width.limbs) ∧
    flagOf (.lt .signed) (State.reset.withAB vecMinS vecZero) = some true ∧
    flagOf (.lt .signed) (State.reset.withAB vecZero vecMaxS) = some true := by decide
theorem witness_ReferenceComparisonErrsExactlyOnOverflow :
    vecMinS.length = Width.limbs .w128 ∧ vecOne.length = Width.limbs .w128 ∧
      ¬ inRange .signed (Width.limbs .w128) (valS (Width.limbs .w128) vecMinS - valS (Width.limbs .w128) vecOne) :=
  ⟨by decide, by decide, by rw [inRange]; decide⟩
theorem witness_ToBridgeAppendsTheDisambiguatingZero :
    (onAB 0x07 vecMinS vecY).request.A.length = (onAB 0x07 vecMinS vecY).width.limbs ∧ signbit 4 vecMinS = true ∧
      signbit 4 vecMaxS = false := by decide
theorem witness_FromBridgeBuildsTheValueOrFailsWithZero :
    (bytesMinS.length ≤ 4 * 4 ∧ (bytesMinS.getD (bytesMinS.length - 1) 0).getLsbD 7 = true) ∧
    ((bytesMinS ++ [0]).length = 4 * 4 + 1 ∧ (bytesMinS ++ [0])[4 * 4]? = some 0 ∧
      ((bytesMinS ++ [0]).getD (4 * 4 - 1) 0).getLsbD 7 = true) ∧
    ¬ ((List.replicate 18 (0 : Byte)).length ≤ 4 * 4 + 1) := by decide
theorem witness_BridgeValueLawsHold :
    (onBin .w128 0x08 [0xFF, 0x00]).request.A.length = (onBin .w128 0x08 [0xFF, 0x00]).width.limbs ∧
      flagOf (.fromBridge .unsigned) (onBin .w128 0x08 [0xFF, 0x00]) = some true ∧
      flagOf (.fromBridge .unsigned) (onBin .w128 0x08 [0xFF]) = some false := by decide
theorem witness_CanonicalSequenceParsesExactlyWhenItFits : canonicalBytes (onBin .w128 0x08 []).request.bin :=
  fun _ _ => Nat.zero_le _
theorem witness_BridgeRoundTripRestoresTheValue :
    (onAB 0x07 vecMinS vecY).request.A.length = (onAB 0x07 vecMinS vecY).width.limbs ∧
      (onBin .w128 0x08 (bytesMinS ++ [0])).width = (onAB 0x07 vecMinS vecY).width ∧
      responseOf (exec (.toBridge .unsigned) (onAB 0x07 vecMinS vecY)) =
        some (.bytes (onBin .w128 0x08 (bytesMinS ++ [0])).request.bin) := by decide
theorem witness_ParseAndFormatContractsHold :
    ((onBin .w128 0x08 [0xFF]).width = .w128 ∧ (onBin .w128 0x08 [0xFF]).request.bin = [0xFF] ∧
      (onAB 0x07 vecMinS vecY).width = .w128 ∧ (onAB 0x07 vecMinS vecY).request.A = vecMinS) ∧
    vecMinS.length = Width.limbs .w128 ∧ hostParse .w128 .unsigned (some [0xFF]) = some (vecZero, false) ∧
      hostParse .w128 .signed (some [0xFF]) = some (vecOnes, true) := by decide
theorem witness_LimbVectorsAreTheNumbersBelowTwoToTheW :
    vecX.length = Width.limbs .w128 ∧ 2 ^ 128 - 1 < 2 ^ Width.bits .w128 := by decide
theorem witness_NamedConstantsHaveTheirValues : 0 < Width.limbs .w128 ∧ 15 < Width.limbs .w512 := by decide
theorem witness_PseudoOperationsHaveTheirEffect :
    vecX.length = Width.limbs .w128 ∧ vecY.length = Width.limbs .w128 := by decide

end Sys2Proof.Tests
end

section
/-! Limb vectors of N limbs and the numbers 0 .. 2^W - 1 (R16, R22). The value laws of Laws/ are stated with the
exponent `32 * n`; `bits_eq` turns W into it. -/
namespace Sys2Proof.Machine

/-- `limbs(x)` loses nothing of a natural number that N limbs can hold (R22). -/
theorem valU_limbsOf_of_lt {n x : Nat} (h : x < 2 ^ (32 * n)) : valU (limbsOf n x) = x := by
  have hv : (valU (limbsOf n x) : Int) = (x : Int) % 2 ^ (32 * n) := valU_limbsOf n x
  have hx : (x : Int) < 2 ^ (32 * n) := by exact_mod_cast h
  rw [Int.emod_eq_of_lt (Int.natCast_nonneg x) hx] at hv
  exact_mod_cast hv

/-- `limbs(x)` loses nothing of an integer in the signed range of N limbs (R22). -/
theorem valS_limbsOf_of_range {n : Nat} (hn : 0 < n) {x : Int} (hlo : -(2 ^ (32 * n - 1)) ≤ x)
    (hhi : x < 2 ^ (32 * n - 1)) : valS n (limbsOf n x) = x :=
  valS_eq_of_emod (length_limbsOf n x) hn hlo hhi (valU_limbsOf n x)

/-- Settles O58: the bound and the injectivity of `valU`, then the two inverses of `limbsOf`. -/
theorem limbVectorsAreTheNumbersBelowTwoToTheW : Obligations.LimbVectorsAreTheNumbersBelowTwoToTheW := by
  intro w
  have hn : 0 < w.limbs := Nat.lt_of_lt_of_le (by decide) (limbs_bounds w).1
  rw [bits_eq]
  refine ⟨?bound, ?injective, ?unsigned, ?signed⟩
  case bound => exact fun v hv => valU_lt_of_length hv
  case injective => exact fun u v hu hv h => valU_inj (hu.trans hv.symm) h
  case unsigned => exact fun x hx => ⟨length_limbsOf _ _, valU_limbsOf_of_lt hx⟩
  case signed => exact fun x hlo hhi => valS_limbsOf_of_range hn hlo hhi

end Sys2Proof.Machine
end

section
/-! What the response to a legal request carries: the ports its operation's format writes, of the sizes the width fixes, and
no other (R22, R27, R62). One lemma per kind of response; `exec_answers_fitting` then goes through the operations once. -/
namespace Sys2Proof.Machine

/-- A response with n limbs on `R` alone fits the five formats that write `R` alone (R62). -/
theorem limbs_fits {n : Nat} {v : LimbVec} (hv : v.length = n) {f : Format}
    (hf : f = .u ∨ f = .l ∨ f = .s ∨ f = .n ∨ f = .y) : (Response.limbs v).fits n f = true := by
  rcases hf with rfl | rfl | rfl | rfl | rfl <;>
    simp [Response.fits, Response.hasR, Response.limbs, Response.okOnly, hv]

theorem limbsFlag_fits {n : Nat} {v : LimbVec} (hv : v.length = n) (b : Bool) :
    (Response.limbsFlag v b).fits n .yf = true := by
  simp [Response.fits, Response.hasR, Response.limbsFlag, Response.okOnly, hv]

theorem bytes_fits {n : Nat} {b : ByteSeq} (hb : b.length = 4 * n ∨ b.length = 4 * n + 1) :
    (Response.bytes b).fits n .ub = true := by
  simp [Response.fits, Response.hasBytes, Response.bytes, Response.okOnly, hb]

theorem order_fits (n : Nat) (o : Order) : (Response.order o).fits n .lo = true := rfl

theorem truth_fits (n : Nat) (b : Bool) : (Response.truth b).fits n .lf = true := rfl

/-- A signal carries no result port, so it fits every format whose operations raise it (R190, R198). -/
theorem signal_fits (n : Nat) {sig : Signal} {f : Format} (h : mayRaise f sig = true) :
    (Response.signal sig).fits n f = true := by
  simp [Response.fits, Response.signal, Response.okOnly, h]

/-- A bridge sequence is the layout, or one byte longer (R171). -/
theorem length_toBridge (sg : Signedness) (n : Nat) (a : LimbVec) :
    (toBridge sg n a).length = 4 * n ∨ (toBridge sg n a).length = 4 * n + 1 := by
  unfold toBridge
  split
  · split <;> simp
  · simp

/-- What FROMBRIDGE builds has n limbs, whichever of its two accepted shapes it reads (R172). -/
theorem length_of_fromBridge {sg : Signedness} {n : Nat} {b : ByteSeq} {v : LimbVec}
    (h : fromBridge sg n b = some v) : v.length = n := by
  unfold fromBridge at h
  split at h
  · obtain ⟨_, ⟨⟩⟩ := Option.ite_none_left_eq_some.mp h
    exact length_limbsOfBytes ..
  · obtain ⟨_, ⟨⟩⟩ := Option.ite_none_right_eq_some.mp h
    exact length_limbsOfBytes ..

/-- Everything a legal request can do, with the ports of its response: it is answered, nothing else changes, and the
response fits the operation's format (R62). -/
theorem exec_answers_fitting (i : Instr) (s : State) :
    ∃ r, exec i s = .next (s.answered r) ∧ r.fits s.width.limbs i.format = true := by
  cases i
  case fromBytes =>
    refine ⟨_, execFromBytes_eq s, ?_⟩
    split
    · exact signal_fits _ rfl
    · exact limbs_fits (length_limbsOfBytes ..) (by simp [Instr.format])
  case fromBridge sg =>
    refine ⟨_, execFromBridge_eq sg s, ?_⟩
    split
    next v hv => exact limbsFlag_fits (length_of_fromBridge hv) true
    next => exact limbsFlag_fits (length_zeroVec _) false
  case toBytes => exact ⟨_, rfl, bytes_fits (.inl (length_layout ..))⟩
  case toBridge => exact ⟨_, rfl, bytes_fits (length_toBridge ..)⟩
  case mul | div | mod => exact ⟨_, rfl, signal_fits _ rfl⟩
  case cmp => exact ⟨_, rfl, order_fits ..⟩
  case lt | le | gt | ge | eq => exact ⟨_, rfl, truth_fits ..⟩
  all_goals exact ⟨_, rfl, limbs_fits (length_build ..) (by simp [Instr.format])⟩

end Sys2Proof.Machine
end

section
/-! The step, case by case (R197), and what follows for every step: its frame, and the invariant `State.wf`. -/
namespace Sys2Proof.Machine

/-- Settles O9: the block waits. -/
theorem stepWithoutRequestClearsResponse : Obligations.StepWithoutRequestClearsResponse := by
  intro s hp
  simp only [step, hp, idle]

/-- Settles O7: a legal command byte leads to its instruction. -/
theorem stepExecutesTheDecodedInstruction : Obligations.StepExecutesTheDecodedInstruction := by
  intro s i hp hd
  simp only [step, hp, hd]

/-- An illegal command byte is answered with the signal and nothing else (R67, R193). -/
theorem step_of_illegal {s : State} {e : Reject} (hp : s.pending = true) (hd : decode s.request.cmd = .error e) :
    step s = .next (s.answered (.signal .illegalRequest)) := by
  simp only [step, hp, hd]
  rfl

/-- A request in progress is answered by a response that its command byte may get (R62, R193, R216). -/
theorem step_answers_matching {s : State} (hp : s.pending = true) :
    ∃ r, step s = .next (s.answered r) ∧ responseMatches s.width.limbs s.request.cmd r = true := by
  cases hd : decode s.request.cmd with
  | error e => exact ⟨_, step_of_illegal hp hd, by simp [responseMatches, hd]⟩
  | ok i =>
    obtain ⟨r, hr, hfit⟩ := exec_answers_fitting i s
    exact ⟨r, (stepExecutesTheDecodedInstruction s i hp hd).trans hr, by simpa [responseMatches, hd] using hfit⟩

/-- Settles O12: the two cases of a step, an answer and waiting, each keep the width and the request ports. -/
theorem stepChangesNeitherWidthNorRequestPorts : Obligations.StepChangesNeitherWidthNorRequestPorts := by
  intro s t hst
  rcases step_cases s with ⟨hp, hs⟩ | ⟨_, r, hs⟩
  · cases hs.symm.trans hst
    exact ⟨rfl, rfl, hp⟩
  · cases hs.symm.trans hst
    exact ⟨rfl, rfl, rfl⟩

/-- A state with no value on its response ports is consistent when its request ports are. -/
theorem wf_of_no_response {s : State} (hq : s.request.wf s.width.limbs) (hr : s.response = none) : s.wf :=
  ⟨hq, fun r h => by simp [hr] at h⟩

/-- A response that the command byte may get keeps the ports consistent. -/
theorem wf_answered {s : State} {r : Response} (hq : s.request.wf s.width.limbs)
    (hr : responseMatches s.width.limbs s.request.cmd r = true) : (s.answered r).wf := by
  refine ⟨hq, fun q hq => ?_⟩
  obtain rfl : r = q := Option.some.inj hq
  unfold responseMatches at hr
  split at hr
  · exact .inr ⟨_, hr⟩
  · exact .inl (beq_iff_eq.mp hr)

/-- Settles O13: an answer matches its command byte, and a step without a request leaves no response to fit. -/
theorem stepKeepsThePortsConsistent : Obligations.StepKeepsThePortsConsistent := by
  intro s t ⟨hq, _⟩ hst
  cases hp : s.pending with
  | false =>
    cases (stepWithoutRequestClearsResponse s hp).symm.trans hst
    exact wf_of_no_response hq rfl
  | true =>
    obtain ⟨r, hs, hr⟩ := step_answers_matching hp
    cases hs.symm.trans hst
    exact wf_answered hq hr

end Sys2Proof.Machine
end

section
/-! The response depends on the width and the request ports only, so a request gets the response it would get alone after
reset (R20, R51). -/
namespace Sys2Proof.Machine

/-- No operation reads the progress bit or the response ports (R20). -/
theorem responseOf_exec_congr {s t : State} (hw : s.width = t.width) (hq : s.request = t.request) (i : Instr) :
    responseOf (exec i s) = responseOf (exec i t) := by
  obtain ⟨w, q, _, _⟩ := s
  obtain ⟨_, _, _, _⟩ := t
  obtain rfl : w = _ := hw
  obtain rfl : q = _ := hq
  cases i
  case fromBytes => simp only [exec, execFromBytes_eq]; rfl
  case fromBridge => simp only [exec, execFromBridge_eq]; rfl
  all_goals rfl

/-- The step that answers a request reads neither (R20). -/
theorem responseOf_step_congr {s t : State} (hw : s.width = t.width) (hq : s.request = t.request)
    (hs : s.pending = true) (ht : t.pending = true) : responseOf (step s) = responseOf (step t) := by
  cases hd : decode s.request.cmd with
  | error e => rw [step_of_illegal hs hd, step_of_illegal ht (hq ▸ hd)]; rfl
  | ok i =>
    rw [stepExecutesTheDecodedInstruction s i hs hd, stepExecutesTheDecodedInstruction t i ht (hq ▸ hd)]
    exact responseOf_exec_congr hw hq i

/-- Every step that answers a request gives it the response it would get alone after reset (R20, R51). -/
theorem step_answers_as_alone {s : State} (hp : s.pending = true) :
    ∃ r, answerAlone s.width s.request = some r ∧ step s = .next (s.answered r) := by
  obtain ⟨r, hs, _⟩ := step_answers_matching hp
  refine ⟨r, ?_, hs⟩
  have h : responseOf (step ((State.resetOf s.width).taking s.request)) = responseOf (step s) :=
    responseOf_step_congr rfl rfl rfl hp
  rw [answerAlone, present_of_not_pending rfl, Option.bind_some, h, hs]
  rfl

/-- A request put on the ports of any state is answered by the next step, as if it were alone (R20, R51). -/
theorem step_taking_answers_as_alone (s : State) (r : Request) :
    ∃ q, answerAlone s.width r = some q ∧ step (s.taking r) = .next ((s.taking r).answered q) := by
  simpa only [taking_width, taking_request] using step_answers_as_alone (taking_pending s r)

/-- A run answers its requests one by one, each as if alone: after an answer the next request can be issued (R20). -/
theorem serve_eq_map_answerAlone (rs : List Request) (s : State) (hp : s.pending = false) :
    serve s rs = rs.map (answerAlone s.width) := by
  induction rs generalizing s with
  | nil => rfl
  | cons r rs ih =>
    obtain ⟨q, hq, hs⟩ := step_taking_answers_as_alone s r
    simp only [serve, present_of_not_pending hp, hs, List.map_cons, hq, answered_response]
    rw [ih _ (answered_pending _ _)]
    rfl

/-- Settles O19: runs by induction on their requests, and after any step no request is being taken. -/
theorem responsesOfARunAreThoseOfItsRequestsAlone : Obligations.ResponsesOfARunAreThoseOfItsRequestsAlone := by
  refine ⟨fun s rs hp => serve_eq_map_answerAlone rs s hp, fun s t rs hst => ?afterStep, fun s hp => ?taken,
    fun w r => ?answered⟩
  case afterStep =>
    obtain ⟨hw, _, hp⟩ := stepChangesNeitherWidthNorRequestPorts s t hst
    rw [serve_eq_map_answerAlone rs t hp, hw]
  case taken =>
    obtain ⟨r, hr, hs⟩ := step_answers_as_alone hp
    rw [hs, hr]
    rfl
  case answered =>
    obtain ⟨q, hq, _⟩ := step_taking_answers_as_alone (State.resetOf w) r
    exact ⟨q, hq⟩

end Sys2Proof.Machine
end

section
/-! The host's moves (R52, R210, R217) and the invariant. -/
namespace Sys2Proof.Machine

/-- The request ports of a reset state have n limbs and an empty byte sequence. -/
theorem wf_atReset (n : Nat) : (Request.atReset n).wf n :=
  ⟨List.length_replicate, List.length_replicate, Nat.two_pow_pos blenBits⟩

theorem wf_resetOf (w : Width) : (State.resetOf w).wf := wf_of_no_response (wf_atReset w.limbs) rfl

/-- Issuing a well-formed request keeps the response ports, which are consistent already. -/
theorem wf_taking {s : State} {r : Request} (hs : s.wf) (hr : r.wf s.width.limbs) : (s.taking r).wf := ⟨hr, hs.2⟩

/-- Settles O14: the reset states, then each of the host's two moves, by what `State.present` and `State.move` can do. -/
theorem resetAndHostMovesMeetTheInvariant : Obligations.ResetAndHostMovesMeetTheInvariant := by
  refine ⟨wf_resetOf .w128, wf_resetOf, fun s hs => wf_of_no_response hs.1 rfl, fun s t r hs hr hst => ?issueKeeps,
    fun s r hp => ⟨s.taking r, present_of_not_pending hp r, rfl, rfl, rfl, rfl⟩, fun s t m hp hst => ?onlyReset,
    fun s t r hst => ?issuedIsAnswered⟩
  case issueKeeps =>
    obtain ⟨_, rfl⟩ := (present_eq_some_iff s t r).mp hst
    exact wf_taking hs hr
  case onlyReset =>
    rcases move_cases hst with ⟨r, _, hnp, _⟩ | ⟨rfl, rfl⟩
    · simp [hp] at hnp
    · exact ⟨rfl, rfl, rfl, rfl, rfl⟩
  case issuedIsAnswered =>
    obtain ⟨_, rfl⟩ := (present_eq_some_iff s t r).mp hst
    exact step_taking_answers_as_alone s r

end Sys2Proof.Machine
end

section
/-! The named constants (R33, R34), by limbs and by value. -/
namespace Sys2Proof.Machine

/-- A value below 2^(W−1) is the same number under both readings (R16, R24). -/
theorem valS_of_lt {n : Nat} {v : LimbVec} (h : v.length = n) (hn : 0 < n) (hlt : valU v < 2 ^ (32 * n - 1)) :
    valS n v = valU v := by
  rw [valS_eq_ite h hn, if_neg (Nat.not_le.mpr hlt)]

theorem valS_zeroVec {n : Nat} (hn : 0 < n) : valS n (zeroVec n) = 0 := by
  rw [valS_of_lt (length_zeroVec n) hn (by rw [valU_zeroVec]; positivity), valU_zeroVec]
  rfl

theorem valS_oneVec {n : Nat} (hn : 0 < n) : valS n (oneVec n) = 1 := by
  have h1 : 1 < 2 ^ (32 * n - 1) := Nat.one_lt_two_pow (by omega)
  rw [valS_of_lt (length_oneVec n) hn (by rwa [valU_oneVec hn]), valU_oneVec hn]
  rfl

theorem valS_maxS {n : Nat} (hn : 0 < n) : valS n (maxS n) = 2 ^ (32 * n - 1) - 1 := by
  have hpos : 0 < 2 ^ (32 * n - 1) := by positivity
  rw [valS_of_lt (length_maxS n) hn (by rw [valU_maxS hn]; omega), valU_maxS hn]
  push_cast [hpos]
  rfl

/-- `MinS` has the one value that its signed reading puts below −MaxS (R34). -/
theorem valS_minS {n : Nat} (hn : 0 < n) : valS n (minS n) = -(2 ^ (32 * n - 1)) := by
  have h2 : (2 : Int) ^ (32 * n) = 2 * 2 ^ (32 * n - 1) := by exact_mod_cast two_pow_bits hn
  rw [valS_eq_ite (length_minS n) hn, valU_minS hn, if_pos le_rfl, h2]
  push_cast
  ring

/-- Settles O59: the limbs by `limb_build`, the values by the value lemma of each constant. -/
theorem namedConstantsHaveTheirValues : Obligations.NamedConstantsHaveTheirValues := by
  intro w
  have hn : 0 < w.limbs := Nat.lt_of_lt_of_le (by decide) (limbs_bounds w).1
  rw [bits_eq]
  refine ⟨fun i hi => ?limbs, valU_zeroVec _, valS_zeroVec hn, valU_oneVec hn, valS_oneVec hn, valU_maxU _,
    valS_maxS hn, valS_minS hn⟩
  case limbs =>
    exact ⟨limb_build _ _ i hi, limb_build _ _ i hi, limb_build _ _ i hi, limb_build _ _ i hi, limb_build _ _ i hi⟩

end Sys2Proof.Machine
end

section
/-! Every step ends in a next state, so every run does (R53, R195, R199). -/
namespace Sys2Proof.Machine

/-- A step waits or answers, and is never a fault or a refusal (R195, R199). -/
theorem step_reaches_state (s : State) : ∃ t, step s = .next t := by
  rcases step_cases s with ⟨_, hs⟩ | ⟨_, r, hs⟩
  · exact ⟨_, hs⟩
  · exact ⟨_, hs⟩

/-- A run goes on from the next state of its first step. -/
theorem run_succ_of_step {s t : State} (h : step s = .next t) (k : Nat) :
    Host.Core.run core (k + 1) s = Host.Core.run core k t := by
  have hc : core.step s = .next t := h
  simp only [Host.Core.run, hc]

/-- Settles O15, by induction on the number of steps. -/
theorem everyRunReachesAState : Obligations.EveryRunReachesAState := by
  intro k
  induction k with
  | zero => exact fun s => ⟨s, rfl⟩
  | succ k ih =>
    intro s
    obtain ⟨s', hs⟩ := step_reaches_state s
    obtain ⟨t, ht⟩ := ih s'
    exact ⟨t, (run_succ_of_step hs k).trans ht⟩

end Sys2Proof.Machine
end

section
/-! The byte layout and the limbs built from bytes are inverse to each other (R49), since both keep the number: val_u of
the limbs is the value of the bytes (R43). -/
namespace Sys2Proof.Machine

/-- The value of a byte sequence determines the sequence among those of its length (R43). -/
theorem valBytes_inj {b c : ByteSeq} (hl : b.length = c.length) (h : valBytes b = valBytes c) : b = c := by
  induction b generalizing c with
  | nil => exact (List.length_eq_zero_iff.mp hl.symm).symm
  | cons x b ih =>
    cases c with
    | nil => simp at hl
    | cons y c =>
      simp only [valBytes_cons] at h
      have hx := x.isLt
      have hy := y.isLt
      have hhead : x.toNat = y.toNat := by omega
      have htail : valBytes b = valBytes c := by omega
      rw [BitVec.eq_of_toNat_eq hhead, ih (by simpa using hl) htail]

/-- The limbs built from a sequence of 4·N bytes have the value of the sequence (R43, R80). -/
theorem valU_limbsOfBytes_byteAt {n : Nat} {b : ByteSeq} (hb : b.length = 4 * n) (pad : Byte) :
    valU (limbsOfBytes n (byteAt b pad)) = valBytes b := by
  rw [valU_limbsOfBytes, ← hb, map_byteAt_range]

/-- Building from the layout of a value gives the value (R49). -/
theorem limbsOfBytes_byteAt_layout {n : Nat} {v : LimbVec} (hv : v.length = n) (pad : Byte) :
    limbsOfBytes n (byteAt (layout n v) pad) = v := by
  apply valU_inj ((length_limbsOfBytes ..).trans hv.symm)
  rw [valU_limbsOfBytes_byteAt (length_layout n v), valBytes_layout hv]

/-- The layout of the value built from 4·N bytes is these bytes (R49). -/
theorem layout_limbsOfBytes_byteAt {n : Nat} {b : ByteSeq} (hb : b.length = 4 * n) (pad : Byte) :
    layout n (limbsOfBytes n (byteAt b pad)) = b := by
  apply valBytes_inj ((length_layout ..).trans hb.symm)
  rw [valBytes_layout (length_limbsOfBytes ..), valU_limbsOfBytes_byteAt hb]

/-- What TOBYTES answers (R86). -/
theorem exec_toBytes_eq (sg : Signedness) (s : State) :
    exec (.toBytes sg) s = .next (s.answered (.bytes (layout s.width.limbs s.request.A))) := rfl

/-- What FROMBYTES answers to a sequence of 4·N bytes (R80). -/
theorem exec_fromBytes_of_blen (sg : Signedness) {s : State} (h : s.request.blen = 4 * s.width.limbs) :
    exec (.fromBytes sg) s =
      .next (s.answered (.limbs (limbsOfBytes s.width.limbs (byteAt s.request.bin 0)))) := by
  have he : exec (.fromBytes sg) s = _ := execFromBytes_eq s
  rwa [limbCount_eq, if_neg (not_not.mpr h)] at he

/-- Settles O29: the request holds the layout of the value, from which FROMBYTES builds it. -/
theorem bytesRoundTripRestoresTheValue : Obligations.BytesRoundTripRestoresTheValue := by
  intro s t sg sg' hA hw hout
  have hbin : layout s.width.limbs s.request.A = t.request.bin := by
    rw [exec_toBytes_eq] at hout
    exact Option.some.inj (congrArg Response.bout (Option.some.inj hout))
  have hlen : t.request.blen = 4 * t.width.limbs := by
    rw [Request.blen, ← hbin, length_layout, hw]
  rw [exec_fromBytes_of_blen sg' hlen, ← hbin, hw, limbsOfBytes_byteAt_layout hA]

/-- Settles O30: port `A` holds the value built from the bytes, whose layout TOBYTES answers. -/
theorem constructedBytesAreRenderedBack : Obligations.ConstructedBytesAreRenderedBack := by
  intro s t sg sg' hlen hw hres
  have hA : limbsOfBytes s.width.limbs (byteAt s.request.bin 0) = t.request.A := by
    rw [resultOf, exec_fromBytes_of_blen sg hlen] at hres
    exact Option.some.inj hres
  rw [exec_toBytes_eq, ← hA, hw, layout_limbsOfBytes_byteAt hlen]

end Sys2Proof.Machine
end

section
/-! The command byte as its three fields (R61), and what the operation map makes of them (R63, R67): decoder and encoder are
inverse, and the illegal bytes are those that R67 lists. -/
namespace Sys2Proof.Machine

/-- Every instruction is read back from the command byte it encodes to (R63). -/
theorem decode_encode (i : Instr) : decode (encode i) = .ok i := by
  cases i <;> rename_i sg <;> cases sg <;> rfl

/-- A command byte decodes to what the operation map has for its `op` and `sg`, provided that `rsv` is 0 (R61, R63). -/
theorem decode_eq_ok_iff (cmd : Byte) (i : Instr) :
    decode cmd = .ok i ↔ rsvField cmd = false ∧ decodeOp (opField cmd) (sgField cmd) = some i := by
  unfold decode
  cases rsvField cmd <;> cases decodeOp (opField cmd) (sgField cmd) <;> simp

/-- The operation map puts each operation at its code and hands `sg` on (R63). -/
theorem opCode_and_sg_of_decodeOp {op : Nat} {sg : Signedness} {i : Instr} (h : decodeOp op sg = some i) :
    opCode i = op ∧ i.sg = sg := by
  unfold decodeOp at h
  split at h <;> cases h <;> exact ⟨rfl, rfl⟩

/-- A command byte is its three fields side by side (R61). -/
theorem toNat_command (cmd : Byte) :
    cmd.toNat = opField cmd + 0x40 * (rsvField cmd).toNat + 0x80 * sgBit (sgField cmd) := by
  have hlt : cmd.toNat < 256 := cmd.isLt
  have hrsv : (rsvField cmd).toNat = cmd.toNat / 64 % 2 := by
    rw [rsvField, BitVec.getLsbD, Nat.toNat_testBit]
  have hsg : sgBit (sgField cmd) = cmd.toNat / 128 % 2 := by
    rw [show cmd.toNat / 128 % 2 = (cmd.getLsbD 7).toNat from (Nat.toNat_testBit cmd.toNat 7).symm, sgField]
    cases cmd.getLsbD 7 <;> rfl
  rw [hrsv, hsg, opField]
  omega

/-- A command byte that decodes to an instruction is the byte of that instruction (R63). -/
theorem encode_of_decode {cmd : Byte} {i : Instr} (h : decode cmd = .ok i) : encode i = cmd := by
  obtain ⟨hrsv, hop⟩ := (decode_eq_ok_iff cmd i).mp h
  obtain ⟨hcode, hsg⟩ := opCode_and_sg_of_decodeOp hop
  have hcmd := toNat_command cmd
  rw [hrsv, Bool.toNat_false, Nat.mul_zero, Nat.add_zero] at hcmd
  rw [encode, hcode, hsg, ← hcmd, BitVec.ofNat_toNat, BitVec.setWidth_eq]

/-- The codes without an operation are those that R67 lists as reserved. -/
theorem isSome_decodeOp {op : Nat} (sg : Signedness) (h : op < 64) : (decodeOp op sg).isSome = !reservedOp op := by
  revert op
  cases sg <;> decide

/-- The two checks on a command byte are the two reasons for which the decoder gives an error (R67). -/
theorem legalCommand_eq (cmd : Byte) :
    legalCommand cmd = (!rsvField cmd && (decodeOp (opField cmd) (sgField cmd)).isSome) := by
  rw [opField, isSome_decodeOp _ (Nat.mod_lt _ (by decide))]
  rfl

/-- A command byte decodes to an operation exactly when it is legal (R67, R70). -/
theorem exists_decode_eq_ok_iff (cmd : Byte) : (∃ i, decode cmd = .ok i) ↔ legalCommand cmd = true := by
  rw [legalCommand_eq]
  unfold decode
  cases rsvField cmd <;> cases decodeOp (opField cmd) (sgField cmd) <;> simp

/-- An illegal command byte decodes to an error, whichever check fails (R67, R70). -/
theorem exists_decode_eq_error_of_not_legal {cmd : Byte} (h : ¬ legalCommand cmd = true) :
    ∃ e, decode cmd = .error e := by
  cases hd : decode cmd with
  | error e => exact ⟨e, rfl⟩
  | ok i => exact absurd ((exists_decode_eq_ok_iff cmd).mp ⟨i, hd⟩) h

/-- A legal command byte, in the words of R67. -/
theorem legalCommand_iff (cmd : Byte) : legalCommand cmd = true ↔ cmd.getLsbD 6 = false ∧
    ¬ ((0x09 ≤ cmd.toNat % 64 ∧ cmd.toNat % 64 ≤ 0x0F) ∨ (0x1B ≤ cmd.toNat % 64 ∧ cmd.toNat % 64 ≤ 0x1F) ∨
      (0x22 ≤ cmd.toNat % 64 ∧ cmd.toNat % 64 ≤ 0x2F) ∨ 0x36 ≤ cmd.toNat % 64) := by
  rw [legalCommand, rsvClear, Bool.and_eq_true, Bool.not_eq_true', Bool.not_eq_true']
  refine and_congr_right fun _ => ?_
  rw [← Bool.not_eq_true]
  simp only [reservedOp, Bool.or_eq_true, Bool.and_eq_true, decide_eq_true_eq]
  omega

/-- Settles O2: the two directions are `decode_encode` and `encode_of_decode`. -/
theorem decodeAndEncodeAgreeOnCommandBytes : Obligations.DecodeAndEncodeAgreeOnCommandBytes :=
  ⟨decode_encode, fun _ _ => encode_of_decode⟩

/-- Settles O1: ten closed instances, evaluated. -/
theorem commandBytesDecodeAsTheMapSays : Obligations.CommandBytesDecodeAsTheMapSays := by
  unfold Obligations.CommandBytesDecodeAsTheMapSays
  decide

/-- Settles O3: the decoder is evaluated on the 256 bytes. -/
theorem fiftySixOfTheCommandBytesAreLegal : Obligations.FiftySixOfTheCommandBytesAreLegal := ⟨rfl, rfl⟩

/-- Settles O10: by `legalCommand_iff` the listed bytes are the illegal ones, and any other one is legal. -/
theorem illegalCommandIsAnsweredIllegalRequest : Obligations.IllegalCommandIsAnsweredIllegalRequest := by
  refine ⟨fun s hp hill => ?illegal, fun cmd hrsv hop => ?legal⟩
  case illegal =>
    have hnot : ¬ legalCommand s.request.cmd = true := by
      rw [legalCommand_iff]
      rintro ⟨hrsv, hop⟩
      rcases hill with hset | hreserved
      · exact absurd (hset.symm.trans hrsv) (by decide)
      · exact hop hreserved
    obtain ⟨e, he⟩ := exists_decode_eq_error_of_not_legal hnot
    exact step_of_illegal hp he
  case legal => exact (exists_decode_eq_ok_iff cmd).mpr ((legalCommand_iff cmd).mpr ⟨hrsv, hop⟩)

end Sys2Proof.Machine
end

section
/-! A placed table word as the next command (log 4): its byte, and the issuing of the request that holds it (R52, R60,
R217). -/
namespace Sys2Proof.Machine

/-- A table word that decodes to an instruction is a command byte that does (R60). -/
theorem decode_of_decodeTableWord {k w : Nat} {i : Instr} (h : decodeTableWord k w = some i) :
    decode (commandOfTableWord k w) = .ok i := by
  unfold decodeTableWord at h
  split at h
  next j hj => rw [hj, Option.some.inj h]
  next => cases h

/-- Of a table word only the low eight bits matter (R60). -/
theorem commandOfTableWord_eight (w : Nat) : commandOfTableWord 8 w = BitVec.ofNat 8 w := by
  apply BitVec.eq_of_toNat_eq
  rw [commandOfTableWord, BitVec.toNat_ofNat, BitVec.toNat_ofNat, Nat.mod_mod]

/-- Placing a table word is the host's issuing of a request where one can be issued (R52, R217). -/
theorem present_freed_eq_withFetchWord (s : State) (k w : Nat) :
    s.freed.present { s.request with cmd := commandOfTableWord k w } = some (s.withFetchWord k w) :=
  present_of_not_pending (freed_pending s) _

theorem freed_of_not_pending {s : State} (h : s.pending = false) : s.freed = s := by rw [State.freed, h]

theorem freed_of_pending {s : State} (h : s.pending = true) : s.freed = s.applyReset := by rw [State.freed, h]

/-- Settles O8: the step from O7, the issuing from `present_freed_eq_withFetchWord`, and the two cases of `State.freed`. -/
theorem placedTableWordIsTheNextCommand : Obligations.PlacedTableWordIsTheNextCommand := by
  intro s w i hw
  refine ⟨?step, ?issue, freed_of_not_pending, fun hp => ?reset⟩
  case step => exact stepExecutesTheDecodedInstruction _ i (withFetchWord_pending s 8 w) (decode_of_decodeTableWord hw)
  case issue => rw [← commandOfTableWord_eight, present_freed_eq_withFetchWord]
  case reset => rw [freed_of_pending hp, State.move]

end Sys2Proof.Machine
end

section
/-! The packed ports (R64, R65): a limb vector of N limbs survives packing, and so does a whole request. -/
namespace Sys2Proof.Machine

/-- A packed port, read as an unsigned number, is val_u of the vector (R64). -/
theorem toNat_packLimbs {n : Nat} {v : LimbVec} (hv : v.length = n) : (packLimbs n v).toNat = valU v := by
  apply Nat.eq_of_testBit_eq
  intro p
  rw [BitVec.testBit_toNat, packLimbs_getLsbD, ← valU_testBit]
  by_cases hp : p < 32 * n
  · simp [hp]
  · have hlt : valU v < 2 ^ p :=
      (valU_lt_of_length hv).trans_le (Nat.pow_le_pow_right (by decide) (Nat.le_of_not_lt hp))
    rw [Nat.testBit_lt_two_pow hlt, Bool.and_false]

/-- Bits 32·i + 31 : 32·i of a packed port are limb i (R64). -/
theorem extractLsb'_packLimbs {n i : Nat} (v : LimbVec) (hi : i < n) :
    (packLimbs n v).extractLsb' (32 * i) 32 = limb v i := by
  apply BitVec.eq_of_getLsbD_eq
  intro q hq
  rw [BitVec.getLsbD_extractLsb', packLimbs_getLsbD, show (32 * i + q) / 32 = i by omega,
    show (32 * i + q) % 32 = q by omega]
  simp [hq, show 32 * i + q < 32 * n by omega]

/-- A limb vector of n limbs is read back from its packed port (R64). -/
theorem unpackLimbs_packLimbs {n : Nat} {v : LimbVec} (hv : v.length = n) : unpackLimbs n (packLimbs n v) = v :=
  limbVec_ext (length_unpackLimbs _) hv fun i hi => by rw [limb_unpackLimbs _ hi, extractLsb'_packLimbs v hi]

/-- The top bit of a packed port is the sign bit (R23, R64). -/
theorem getLsbD_packLimbs_top {n : Nat} {v : LimbVec} (hv : v.length = n) (hn : 0 < n) :
    (packLimbs n v).getLsbD (32 * n - 1) = signbit n v := by
  rw [signbit_eq_testBit v hn, ← toNat_packLimbs hv, BitVec.testBit_toNat]

/-- Settles O4: the number, the limbs and the top bit of a packed port. -/
theorem packedPortIsTheUnsignedValue : Obligations.PackedPortIsTheUnsignedValue := by
  intro w v hv
  have hn : 0 < w.limbs := Nat.lt_of_lt_of_le (by decide) (limbs_bounds w).1
  rw [bits_eq]
  exact ⟨toNat_packLimbs hv, fun i hi => extractLsb'_packLimbs v hi, getLsbD_packLimbs_top hv hn⟩

/-- The operands of a well-formed request are read back from its drawn ports (R64, R65). -/
theorem unpackRequest_encodeRequest {n : Nat} (i : Instr) {r : Request} (hr : r.wf n) :
    unpackRequest n (encodeRequest n i r) = { r with cmd := encode i } := by
  obtain ⟨hA, hB, hlen⟩ := hr
  have hbin : r.bin.take (BitVec.ofNat 16 r.blen).toNat = r.bin := by
    rw [BitVec.toNat_ofNat, show r.blen % 2 ^ 16 = r.bin.length from Nat.mod_eq_of_lt hlen, List.take_length]
  simp only [unpackRequest, encodeRequest, unpackLimbs_packLimbs hA, unpackLimbs_packLimbs hB, hbin]

/-- Settles O5: the command byte by `decode_encode`, the operands by `unpackRequest_encodeRequest`. -/
theorem requestSurvivesEncodingAndDecoding : Obligations.RequestSurvivesEncodingAndDecoding := by
  intro w i r hr
  have hcmd : decode (encodeRequest w.limbs i r).cmd = .ok i := decode_encode i
  simp only [decodeRequest, hcmd, unpackRequest_encodeRequest i hr]

end Sys2Proof.Machine
end

section
/-! The response ports (R68): what a response that fits a format can carry, and how it is drawn. -/
namespace Sys2Proof.Machine

/-- A response that fits a format carries n limbs on `R`, if any (R22, R62). -/
theorem length_R_of_fits {n : Nat} {f : Format} {r : Response} (h : r.fits n f = true) {v : LimbVec}
    (hv : r.R = some v) : v.length = n := by
  unfold Response.fits at h
  cases hs : r.status <;> cases f <;> simp_all [Response.hasR]

/-- A response that fits a format carries 4·n or 4·n + 1 bytes on `bout`, if any (R27, R62). -/
theorem length_bout_of_fits {n : Nat} {f : Format} {r : Response} (h : r.fits n f = true) {b : ByteSeq}
    (hb : r.bout = some b) : b.length = 4 * n ∨ b.length = 4 * n + 1 := by
  unfold Response.fits at h
  cases hs : r.status <;> cases f <;> simp_all [Response.hasBytes]

/-- A response that carries `ord` fits format LO only (R62). -/
theorem format_of_fits_of_ord {n : Nat} {f : Format} {r : Response} (h : r.fits n f = true) (ho : r.ord ≠ none) :
    f = .lo := by
  unfold Response.fits at h
  cases hs : r.status <;> cases f <;> simp_all

/-- CMP is the one operation of format LO (R62). -/
theorem eq_cmp_of_format {i : Instr} (h : i.format = .lo) : ∃ sg, i = .cmp sg := by
  cases i
  case cmp sg => exact ⟨sg, rfl⟩
  all_goals cases h

/-- The response of an operation fits the operation's format (R62). -/
theorem fits_of_responseOf_exec {s : State} {i : Instr} {r : Response} (h : responseOf (exec i s) = some r) :
    r.fits s.width.limbs i.format = true := by
  obtain ⟨q, hq, hfit⟩ := exec_answers_fitting i s
  rw [hq] at h
  exact Option.some.inj h ▸ hfit

/-- On a response of the block the drawn port `R` reads as val_u and `bolen` as the number of bytes (R64, R65). -/
theorem packResponse_lossless {w : Width} {f : Format} {r : Response} (h : r.fits w.limbs f = true) :
    (packResponse w.limbs r).R.map BitVec.toNat = r.R.map valU ∧
      (packResponse w.limbs r).bolen.map BitVec.toNat = r.bout.map List.length := by
  simp only [packResponse, Response.bolen, Option.map_map]
  constructor
  · exact Option.map_congr fun v hv => toNat_packLimbs (length_R_of_fits h hv)
  · refine Option.map_congr fun b hb => ?_
    have hn := (limbs_bounds w).2
    have hlen := length_bout_of_fits h hb
    exact (BitVec.toNat_ofNat _ _).trans (Nat.mod_eq_of_lt (by omega))

/-- Settles O6: the codes are evaluated; what `ord` and the drawn ports can carry follows from the response's format. -/
theorem responsePortsCarryTheirCodes : Obligations.ResponsePortsCarryTheirCodes := by
  refine ⟨rfl, rfl, rfl, rfl, rfl, rfl, rfl, fun o => ?ordCode, rfl, rfl, fun s i r hr ho => ?cmpOnly,
    fun n r => ⟨rfl, rfl, rfl, rfl, ?bolen, rfl⟩, fun s i r hr => packResponse_lossless (fits_of_responseOf_exec hr)⟩
  case ordCode => cases o <;> decide
  case cmpOnly => exact eq_cmp_of_format (format_of_fits_of_ord (fits_of_responseOf_exec hr) ho)
  case bolen => exact Option.map_map ..

end Sys2Proof.Machine
end

section
/-! What the response of an operation depends on: the ports its format reads (R62), and `sg` for eight operations (R66). -/
namespace Sys2Proof.Machine

/-- The response of an operation depends on the ports its format reads only: one case per format (R62). -/
theorem responseOf_exec_agree {s t : State} {i : Instr} (hw : s.width = t.width)
    (h : Request.agree i.format s.request t.request) : responseOf (exec i s) = responseOf (exec i t) := by
  obtain ⟨w, ⟨_, A, B, amt, nat, bin⟩, _, _⟩ := s
  obtain ⟨_, ⟨_, A', B', amt', nat', bin'⟩, _, _⟩ := t
  obtain rfl : w = _ := hw
  cases i
  case fromLimbs | plus | neg | not | toBytes | toBridge =>
    obtain rfl : A = A' := h
    rfl
  case add | sub | and | or | xor | cmp | lt | le | gt | ge | eq =>
    obtain ⟨rfl, rfl⟩ : A = A' ∧ B = B' := h
    rfl
  case shl | shr =>
    obtain ⟨rfl, rfl⟩ : A = A' ∧ amt = amt' := h
    rfl
  case fromI32 | fromU32 | fromI64 | fromU64 =>
    obtain rfl : nat = nat' := h
    rfl
  case fromBytes =>
    obtain rfl : bin = bin' := h
    simp only [exec, execFromBytes_eq]
    rfl
  case fromBridge =>
    obtain rfl : bin = bin' := h
    simp only [exec, execFromBridge_eq]
    rfl
  case mul | div | mod => rfl

/-- Settles O18: the response is one that fits the format, and the other state has the same. -/
theorem formatFixesThePortsReadAndWritten : Obligations.FormatFixesThePortsReadAndWritten := by
  intro s t i hw h
  obtain ⟨r, hr, hfit⟩ := exec_answers_fitting i s
  have hs : responseOf (exec i s) = some r := by rw [hr]; rfl
  exact ⟨r, hs, (responseOf_exec_agree hw h).symm.trans hs, hfit⟩

/-- A state in which each of the eight operations shows which value `sg` has: `A` is the most negative number, `B` is Zero,
the amount is 1, and `bin` is one byte with its sign bit set (R66). -/
def sgRevealing (w : Width) : State :=
  (State.resetOf w).taking
    { Request.atReset w.limbs with A := minS w.limbs, B := zeroVec w.limbs, amt := 1, bin := [0x80] }

theorem wf_sgRevealing (w : Width) : (sgRevealing w).request.wf w.limbs :=
  ⟨length_minS _, length_zeroVec _, Nat.one_lt_two_pow (by decide)⟩

/-- The sign bit of the most negative number is set (R34). -/
theorem signbit_minS {n : Nat} (hn : 0 < n) : signbit n (minS n) = true := by
  rw [signbit_iff (length_minS n) hn, valU_minS hn]

/-- MinS is below Zero as a signed number. -/
theorem compareLimbs_signed_minS_zeroVec {n : Nat} (hn : 0 < n) :
    compareLimbs .signed n (minS n) (zeroVec n) = .less := by
  rw [compareLimbs_eq _ (length_minS n) (length_zeroVec n), val, val, valS_minS hn, valS_zeroVec hn, orderOfValues,
    if_pos (neg_lt_zero.mpr (by positivity))]

/-- MinS is above Zero as an unsigned number. -/
theorem compareLimbs_unsigned_minS_zeroVec {n : Nat} (hn : 0 < n) :
    compareLimbs .unsigned n (minS n) (zeroVec n) = .greater := by
  have hpos : 0 < 2 ^ (32 * n - 1) := by positivity
  rw [compareLimbs_eq _ (length_minS n) (length_zeroVec n), val, val, orderOfValues_cast, valU_minS hn, valU_zeroVec,
    if_neg (by omega), if_neg (by omega)]

/-- A right shift of MinS by one puts the fill bit at the top, which is the sign bit or 0 (R131, R133). -/
theorem shrLimbs_minS_ne {n : Nat} (hn : 0 < n) :
    shrLimbs .signed n (minS n) 1 ≠ shrLimbs .unsigned n (minS n) 1 := by
  intro h
  have htop := congrArg (fun v => (valU v).testBit (32 * n - 1)) h
  simp [testBit_shrLimbs, signbit_minS hn, hn, show 32 * n - 1 + 1 = 32 * n by omega] at htop

/-- The bridge sequence of MinS is one byte longer as an unsigned number (R171). -/
theorem toBridge_minS_ne {n : Nat} (hn : 0 < n) : toBridge .signed n (minS n) ≠ toBridge .unsigned n (minS n) := by
  intro h
  have hlen := congrArg List.length h
  simp [toBridge, signbit_minS hn] at hlen

/-- A negative sequence fails as an unsigned number only (R172). -/
theorem fromBridge_negative_byte_isSome {n : Nat} (hn : 0 < n) (sg : Signedness) :
    (fromBridge sg n [0x80]).isSome = decide (sg = .signed) := by
  have hlen : ([0x80] : ByteSeq).length ≤ 4 * n := by simp; omega
  have hneg : bridgeNegative [0x80] = true := by decide
  rw [fromBridge, if_pos hlen, hneg]
  cases sg <;> rfl

/-- An operation that R66 does not name is not given `sg`. -/
theorem exec_withSg_of_not_readsSg {i : Instr} (h : i.readsSg = false) (sg : Signedness) (s : State) :
    exec (i.withSg sg) s = exec i s := by
  cases i
  case toBridge | fromBridge | shr | cmp | lt | le | gt | ge => cases h
  all_goals rfl

/-- Each of the eight operations answers differently for the two values of `sg` in the state made for it (R66). -/
theorem responseOf_exec_sgRevealing_ne {i : Instr} (h : i.readsSg = true) (w : Width) :
    responseOf (exec (i.withSg .signed) (sgRevealing w)) ≠ responseOf (exec (i.withSg .unsigned) (sgRevealing w)) := by
  have hn : 0 < (sgRevealing w).limbCount := Nat.lt_of_lt_of_le (by decide) (limbs_bounds w).1
  have hless : compareLimbs .signed (sgRevealing w).limbCount (opA (sgRevealing w)) (opB (sgRevealing w)) = .less :=
    compareLimbs_signed_minS_zeroVec hn
  have hgreater :
      compareLimbs .unsigned (sgRevealing w).limbCount (opA (sgRevealing w)) (opB (sgRevealing w)) = .greater :=
    compareLimbs_unsigned_minS_zeroVec hn
  cases i
  case cmp | lt | le | gt | ge =>
    simp only [Instr.withSg, exec, execCmp, execLt, execLe, execGt, execGe, responseOf_respond, hless, hgreater]
    decide
  case shr =>
    exact fun he => shrLimbs_minS_ne hn (Option.some.inj (congrArg (fun r => r.bind Response.R) he))
  case toBridge =>
    exact fun he => toBridge_minS_ne hn (Option.some.inj (congrArg (fun r => r.bind Response.bout) he))
  case fromBridge =>
    intro he
    have hflag : flagOf (.fromBridge .signed) (sgRevealing w) = flagOf (.fromBridge .unsigned) (sgRevealing w) :=
      congrArg (fun r => r.bind Response.flag) he
    rw [flagOf_fromBridge, flagOf_fromBridge, show (sgRevealing w).request.bin = [0x80] from rfl,
      fromBridge_negative_byte_isSome hn, fromBridge_negative_byte_isSome hn] at hflag
    exact absurd hflag (by decide)
  all_goals cases h

/-- The eight operations of R66, as instructions. -/
theorem readsSg_iff (i : Instr) : i.readsSg = true ↔ ∃ sg, i = .shr sg ∨ i = .cmp sg ∨ i = .lt sg ∨ i = .le sg ∨
    i = .gt sg ∨ i = .ge sg ∨ i = .toBridge sg ∨ i = .fromBridge sg := by
  cases i <;> simp [Instr.readsSg]

/-- Settles O21: twenty operations are not given `sg`, and the state `sgRevealing` tells its values apart for the other
eight. -/
theorem signednessMattersToExactlyEightOperations : Obligations.SignednessMattersToExactlyEightOperations :=
  ⟨fun _ s h sg => exec_withSg_of_not_readsSg h sg s,
    fun _ w h => ⟨sgRevealing w, rfl, wf_sgRevealing w, responseOf_exec_sgRevealing_ne h w⟩, readsSg_iff⟩

end Sys2Proof.Machine
end

section
/-! The pseudo-operations (R72), as the requests they expand to. -/
namespace Sys2Proof.Machine

/-- The request of any instruction, issued alone, is answered by that instruction (R51, R71). -/
theorem answerAlone_forInstr_eq (w : Width) (i : Instr) (r : Request) :
    answerAlone w (Request.forInstr i r) = responseOf (exec i ((State.resetOf w).taking (Request.forInstr i r))) :=
  answerAlone_forInstr w i r (decode_encode i)

/-- Zero is the 32-bit number 0, zero-extended (R33, R83). -/
theorem extend32_zero (n : Nat) : extend32 n 0 0 = zeroVec n := build_congr fun i _ => by simp

/-- One is the 32-bit number 1, zero-extended: `extend32` has the same limbs by its definition (R33, R83). -/
theorem extend32_one (n : Nat) : extend32 n 1 0 = oneVec n := rfl

/-- `mov` answers with its operand (R72, R81). -/
theorem answerAlone_mov {w : Width} {v : LimbVec} (hv : v.length = w.limbs) :
    answerAlone w (Request.mov w.limbs v) = some (.limbs v) :=
  calc answerAlone w (Request.mov w.limbs v)
      = some (.limbs (copyLimbs w.limbs v)) := answerAlone_forInstr_eq ..
    _ = some (.limbs v) := by rw [copyLimbs, build_limb hv]

theorem answerAlone_zero (w : Width) : answerAlone w (Request.zero w.limbs) = some (.limbs (zeroVec w.limbs)) :=
  calc answerAlone w (Request.zero w.limbs)
      = some (.limbs (extend32 w.limbs 0 0)) := answerAlone_forInstr_eq ..
    _ = some (.limbs (zeroVec w.limbs)) := by rw [extend32_zero]

theorem answerAlone_one (w : Width) : answerAlone w (Request.one w.limbs) = some (.limbs (oneVec w.limbs)) :=
  calc answerAlone w (Request.one w.limbs)
      = some (.limbs (extend32 w.limbs 1 0)) := answerAlone_forInstr_eq ..
    _ = some (.limbs (oneVec w.limbs)) := by rw [extend32_one]

/-- `ne` inverts the flag of EQ, which is set exactly of equal vectors (R72, R155). -/
theorem hostNe_eq {w : Width} {u v : LimbVec} (hu : u.length = w.limbs) (hv : v.length = w.limbs) :
    hostNe w u v = some (decide (u ≠ v)) := by
  have hflag : hostNe w u v = some (!equalLimbs w.limbs u v) := by
    rw [hostNe, answerAlone_forInstr_eq]
    rfl
  have heq : equalLimbs w.limbs u v = decide (u = v) := by
    rw [Bool.eq_iff_iff, equalLimbs_iff hu hv, decide_eq_true_eq]
  rw [hflag, heq, decide_not]

/-- Settles O60, pseudo-operation by pseudo-operation. -/
theorem pseudoOperationsHaveTheirEffect : Obligations.PseudoOperationsHaveTheirEffect :=
  fun w _ _ hu hv => ⟨answerAlone_mov hv, answerAlone_zero w, answerAlone_one w, hostNe_eq hu hv⟩

end Sys2Proof.Machine
end

section
/-! Extension of a value to more limbs (R82 to R85): limbs beyond the value's own are the fill limb, read by the model's
`ext`. Copies of the sign bit keep the signed value, zeros keep the unsigned one; FROMI32, FROMU32, FROMI64 and FROMU64
are the cases of one and of two limbs. -/
namespace Sys2Proof.Machine

@[simp] theorem msb_fillLimb (b : Bool) : (fillLimb b).msb = b := by cases b <;> rfl

theorem getElem_fillLimb (b : Bool) {i : Nat} (hi : i < 32) : (fillLimb b)[i] = b := by
  cases b with
  | false => exact BitVec.getElem_zero hi
  | true => exact BitVec.getElem_allOnes i hi

theorem fillLimb_eq_zero_iff (b : Bool) : fillLimb b = 0 ↔ b = false := by cases b <;> decide

/-- The limbs of a bit vector have its unsigned value (R64). -/
theorem valU_unpackLimbs {n : Nat} (x : BitVec (32 * n)) : valU (unpackLimbs n x) = x.toNat := by
  have hdigits : unpackLimbs n x = build n fun i => BitVec.ofNat 32 (x.toNat / 2 ^ (32 * i)) :=
    build_congr fun i _ => BitVec.eq_of_toNat_eq (by
      rw [BitVec.extractLsb'_toNat, BitVec.toNat_ofNat, Nat.shiftRight_eq_div_pow])
  rw [hdigits, valU_build_digits, Nat.mod_eq_of_lt x.isLt]

/-- The sign bit of the limbs of a bit vector is its top bit (R23, R64). -/
theorem signbit_unpackLimbs {n : Nat} (hn : 0 < n) (x : BitVec (32 * n)) : signbit n (unpackLimbs n x) = x.msb := by
  rw [signbit_eq_testBit _ hn, valU_unpackLimbs, BitVec.msb_eq_getLsbD_last, BitVec.testBit_toNat]

/-- The limbs of a bit vector have its signed value (R16, R64). -/
theorem valS_unpackLimbs {n : Nat} (hn : 0 < n) (x : BitVec (32 * n)) : valS n (unpackLimbs n x) = x.toInt := by
  rw [valS, signbit_unpackLimbs hn, valU_unpackLimbs, BitVec.toInt_eq_msb_cond]
  split <;> simp

/-- Limbs of ones above m limbs add 2^(32·n) − 2^(32·m), limbs of zeros add nothing. -/
theorem valU_build_ext {m n : Nat} {u : LimbVec} (hu : u.length = m) (h : m ≤ n) (b : Bool) :
    valU (build n (ext m u (fillLimb b))) + (if b then 2 ^ (32 * m) else 0) =
      valU u + (if b then 2 ^ (32 * n) else 0) := by
  induction n, h using Nat.le_induction with
  | base =>
    have hown : build m (ext m u (fillLimb b)) = u :=
      (build_congr fun i hi => if_pos hi).trans (build_limb hu)
    rw [hown]
  | succ n hmn ih =>
    rw [valU_build_succ, ext, if_neg (Nat.not_lt.mpr hmn)]
    cases b with
    | false => simpa [fillLimb] using ih
    | true =>
      simp only [fillLimb, if_true] at ih ⊢
      rw [show (0xFFFFFFFF : Limb).toNat = 2 ^ 32 - 1 from rfl, show 32 * (n + 1) = 32 * n + 32 by omega, pow_add]
      omega

/-- Zero extension keeps the unsigned value (R83, R85). -/
theorem valU_zeroExtended {m n : Nat} {u : LimbVec} (hu : u.length = m) (h : m ≤ n) :
    valU (build n (ext m u 0)) = valU u :=
  valU_build_ext hu h false

/-- A zero-extended value has its top bit clear, so its signed value is the unsigned one (R83, R85). -/
theorem valS_zeroExtended {m n : Nat} {u : LimbVec} (hu : u.length = m) (h : m < n) :
    valS n (build n (ext m u 0)) = valU u := by
  have hval := valU_zeroExtended hu h.le
  have hlt : valU u < 2 ^ (32 * n - 1) :=
    (valU_lt_of_length hu).trans_le (Nat.pow_le_pow_right (by decide) (by omega))
  rw [valS_of_lt (length_build ..) (Nat.zero_lt_of_lt h) (hval.symm ▸ hlt), hval]

/-- Sign extension keeps the sign bit (R82, R84). -/
theorem signbit_signExtended {m n : Nat} (u : LimbVec) (hm : 0 < m) (h : m ≤ n) :
    signbit n (build n (ext m u (fillLimb (signbit m u)))) = signbit m u := by
  rw [signbit, limb_build _ _ _ (by omega), ext]
  split
  · rw [show n - 1 = m - 1 by omega, signbit]
  · exact msb_fillLimb _

/-- Sign extension keeps the signed value (R82, R84). -/
theorem valS_signExtended {m n : Nat} {u : LimbVec} (hu : u.length = m) (hm : 0 < m) (h : m ≤ n) :
    valS n (build n (ext m u (fillLimb (signbit m u)))) = valS m u := by
  have hval := valU_build_ext hu h (signbit m u)
  rw [valS, valS, signbit_signExtended u hm h]
  zify at hval
  linarith

/-- A bit vector of m limbs, sign-extended to n limbs, is the same signed number (R82, R84). -/
theorem valS_signExtended_unpackLimbs {m n : Nat} (hm : 0 < m) (h : m ≤ n) (x : BitVec (32 * m)) :
    valS n (build n (ext m (unpackLimbs m x) (fillLimb x.msb))) = x.toInt := by
  rw [← signbit_unpackLimbs hm, valS_signExtended (length_unpackLimbs x) hm h, valS_unpackLimbs hm]

/-- A bit vector of m limbs, zero-extended, is the same unsigned number under both readings (R83, R85). -/
theorem val_zeroExtended_unpackLimbs {m n : Nat} (h : m < n) (x : BitVec (32 * m)) :
    valU (build n (ext m (unpackLimbs m x) 0)) = x.toNat ∧ valS n (build n (ext m (unpackLimbs m x) 0)) = x.toNat := by
  rw [valU_zeroExtended (length_unpackLimbs x) h.le, valS_zeroExtended (length_unpackLimbs x) h, valU_unpackLimbs]
  exact ⟨rfl, rfl⟩

/-- The 32-bit constructors extend a value of one limb. -/
theorem extend32_eq_build_ext (n : Nat) (x f : Limb) : extend32 n x f = build n (ext 1 (unpackLimbs 1 x) f) := by
  have hown : unpackLimbs 1 x = [x] := congrArg (fun y => [y]) BitVec.extractLsb'_eq_self
  rw [hown]
  refine build_congr fun i _ => ?_
  match i with
  | 0 | _ + 1 => rfl

/-- The 64-bit constructors extend a value of two limbs. -/
theorem extend64_eq_build_ext (n : Nat) (x : BitVec 64) (f : Limb) :
    extend64 n (x.extractLsb' 0 32) (x.extractLsb' 32 32) f = build n (ext 2 (unpackLimbs 2 x) f) := by
  refine build_congr fun i _ => ?_
  match i with
  | 0 | 1 | _ + 2 => rfl

/-- The value FROMI32 builds is the number on its port, read as signed (R82). -/
theorem valS_extend32_fill {n : Nat} (hn : 1 ≤ n) (x : Limb) : valS n (extend32 n x (fillLimb x.msb)) = x.toInt := by
  rw [extend32_eq_build_ext]
  exact valS_signExtended_unpackLimbs (m := 1) (by decide) hn x

/-- The value FROMI64 builds is the number on its port, read as signed (R84). -/
theorem valS_extend64_fill {n : Nat} (hn : 2 ≤ n) (x : BitVec 64) :
    valS n (extend64 n (x.extractLsb' 0 32) (x.extractLsb' 32 32) (fillLimb x.msb)) = x.toInt := by
  rw [extend64_eq_build_ext]
  exact valS_signExtended_unpackLimbs (m := 2) (by decide) hn x

/-- The value FROMU32 builds is the number on its port, under both readings (R83). -/
theorem val_extend32_zero {n : Nat} (hn : 1 < n) (x : Limb) :
    valU (extend32 n x 0) = x.toNat ∧ valS n (extend32 n x 0) = x.toNat := by
  rw [extend32_eq_build_ext]
  exact val_zeroExtended_unpackLimbs (m := 1) hn x

/-- The value FROMU64 builds is the number on its port, under both readings (R85). -/
theorem val_extend64_zero {n : Nat} (hn : 2 < n) (x : BitVec 64) :
    valU (extend64 n (x.extractLsb' 0 32) (x.extractLsb' 32 32) 0) = x.toNat ∧
      valS n (extend64 n (x.extractLsb' 0 32) (x.extractLsb' 32 32) 0) = x.toNat := by
  rw [extend64_eq_build_ext]
  exact val_zeroExtended_unpackLimbs (m := 2) hn x

theorem length_extend32 (n : Nat) (lo f : Limb) : (extend32 n lo f).length = n := length_build ..
theorem length_extend64 (n : Nat) (lo hi f : Limb) : (extend64 n lo hi f).length = n := length_build ..

/-- The limbs of an extended 32-bit value: the value, then the fill (R82, R83). -/
theorem limb_extend32_zero {n : Nat} (hn : 0 < n) (lo f : Limb) : limb (extend32 n lo f) 0 = lo := limb_build _ _ 0 hn

theorem limb_extend32_above {n i : Nat} (hi : i < n) (h : 1 ≤ i) (lo f : Limb) : limb (extend32 n lo f) i = f := by
  rw [extend32, limb_build _ _ _ hi, if_neg (by omega)]

/-- The limbs of an extended 64-bit value: its two halves, then the fill (R84, R85). -/
theorem limb_extend64_zero {n : Nat} (hn : 0 < n) (lo hi f : Limb) : limb (extend64 n lo hi f) 0 = lo :=
  limb_build _ _ 0 hn

theorem limb_extend64_one {n : Nat} (hn : 1 < n) (lo hi f : Limb) : limb (extend64 n lo hi f) 1 = hi :=
  limb_build _ _ 1 hn

theorem limb_extend64_above {n i : Nat} (hin : i < n) (h : 2 ≤ i) (lo hi f : Limb) :
    limb (extend64 n lo hi f) i = f := by
  rw [extend64, limb_build _ _ _ hin, if_neg (by omega), if_neg (by omega)]

end Sys2Proof.Machine
end

section
/-! The native constructors (R82 to R87). -/
namespace Sys2Proof.Machine

/-- The upper half of a 64-bit number has its sign bit. -/
theorem msb_natHigh (s : State) : (natHigh s).msb = s.request.nat.msb :=
  signbit_unpackLimbs (n := 2) (by decide) s.request.nat

/-- What FROMI32 answers (R82). -/
theorem exec_fromI32_eq (sg : Signedness) (s : State) : exec (.fromI32 sg) s =
    .next (s.answered (.limbs (extend32 s.width.limbs (natLow s) (fillLimb (natLow s).msb)))) := rfl

/-- What FROMU32 answers (R83). -/
theorem exec_fromU32_eq (sg : Signedness) (s : State) : exec (.fromU32 sg) s =
    .next (s.answered (.limbs (extend32 s.width.limbs (natLow s) 0))) := rfl

/-- What FROMI64 answers; the fill is taken from the sign bit of the whole number (R84). -/
theorem exec_fromI64_eq (sg : Signedness) (s : State) : exec (.fromI64 sg) s =
    .next (s.answered (.limbs (extend64 s.width.limbs (natLow s) (natHigh s) (fillLimb s.request.nat.msb)))) := by
  rw [← msb_natHigh]
  rfl

/-- What FROMU64 answers (R85). -/
theorem exec_fromU64_eq (sg : Signedness) (s : State) : exec (.fromU64 sg) s =
    .next (s.answered (.limbs (extend64 s.width.limbs (natLow s) (natHigh s) 0))) := rfl

/-- Settles O25: the limbs by their place, the values by sign and by zero extension of one limb. -/
theorem native32IsExtendedAsItsSourceSays : Obligations.Native32IsExtendedAsItsSourceSays := by
  refine ⟨⟨rfl, rfl⟩, ⟨rfl, rfl⟩, fun s sg => ?_⟩
  have hn : 1 < s.width.limbs := Nat.lt_of_lt_of_le (by decide) (limbs_bounds s.width).1
  have hsigned := valS_extend32_fill hn.le (natLow s)
  rw [bits_eq]
  refine ⟨⟨_, exec_fromI32_eq sg s, length_extend32 .., limb_extend32_zero (by omega) .., ?_, hsigned, ?_⟩,
    ⟨_, exec_fromU32_eq sg s, length_extend32 .., limb_extend32_zero (by omega) .., ?_, val_extend32_zero hn _⟩⟩
  · exact fun i hi h => limb_extend32_above hi h ..
  · rw [← valS_emod (length_extend32 ..), hsigned]
    rfl
  · exact fun i hi h => limb_extend32_above hi h ..

/-- Settles O26: the limbs by their place, the values by sign and by zero extension of two limbs. -/
theorem native64IsExtendedAsItsSourceSays : Obligations.Native64IsExtendedAsItsSourceSays := by
  refine ⟨⟨rfl, rfl⟩, ⟨rfl, rfl⟩, fun s sg => ?_⟩
  have hn : 2 < s.width.limbs := Nat.lt_of_lt_of_le (by decide) (limbs_bounds s.width).1
  have hsigned := valS_extend64_fill hn.le s.request.nat
  rw [bits_eq]
  refine ⟨⟨_, exec_fromI64_eq sg s, length_extend64 .., limb_extend64_zero (by omega) ..,
      limb_extend64_one (by omega) .., ?_, hsigned, ?_⟩,
    ⟨_, exec_fromU64_eq sg s, length_extend64 .., limb_extend64_zero (by omega) ..,
      limb_extend64_one (by omega) .., ?_, val_extend64_zero hn _⟩⟩
  · exact fun i hi h => limb_extend64_above hi h ..
  · rw [← valS_emod (length_extend64 ..)]
    exact congrArg (· % _) hsigned
  · exact fun i hi h => limb_extend64_above hi h ..

/-- A 64-bit value whose upper half is a limb of the fill is extended as its lower half is. -/
theorem extend64_same_fill (n : Nat) (lo f : Limb) : extend64 n lo f f = extend32 n lo f :=
  build_congr fun i _ => by split <;> simp

/-- The halves of a 32-bit number sign-extended to 64 bits. -/
theorem halves_signExtend (x : Limb) : (x.signExtend 64).extractLsb' 0 32 = x ∧
    (x.signExtend 64).extractLsb' 32 32 = fillLimb x.msb := by
  constructor
  · ext i hi
    simp [BitVec.getElem_signExtend, hi, show i < 64 by omega]
  · ext i hi
    simp [BitVec.getElem_signExtend, getElem_fillLimb, show 32 + i < 64 by omega]

/-- The halves of a 32-bit number zero-extended to 64 bits. -/
theorem halves_setWidth (x : Limb) : (x.setWidth 64).extractLsb' 0 32 = x ∧
    (x.setWidth 64).extractLsb' 32 32 = 0 := by
  constructor
  · ext i hi
    simp [hi, show i < 64 by omega]
  · ext i hi
    simp

/-- Limb 1 is a fill limb, so the fill can be read off an extended 32-bit value. -/
theorem extend32_fill_eq_iff {n : Nat} (hn : 1 < n) (lo f g : Limb) : extend32 n lo f = extend32 n lo g ↔ f = g := by
  refine ⟨fun h => ?_, congrArg _⟩
  rw [← limb_extend32_above hn le_rfl lo f, h, limb_extend32_above hn le_rfl]

/-- Limb 2 is a fill limb, so the fill can be read off an extended 64-bit value. -/
theorem extend64_fill_eq_iff {n : Nat} (hn : 2 < n) (lo hi f g : Limb) :
    extend64 n lo hi f = extend64 n lo hi g ↔ f = g := by
  refine ⟨fun h => ?_, congrArg _⟩
  rw [← limb_extend64_above hn le_rfl lo hi f, h, limb_extend64_above hn le_rfl]

theorem resultOf_of_exec {i : Instr} {s : State} {v : LimbVec} (h : exec i s = .next (s.answered (.limbs v))) :
    resultOf i s = some v := by
  rw [resultOf, h]
  rfl

/-- Settles O27: the upper half of an extended number is the fill, and two fills are told apart by a limb that they fill. -/
theorem nativeConstructorsAgree : Obligations.NativeConstructorsAgree := by
  intro s t sg hw
  have hn : 2 < s.width.limbs := Nat.lt_of_lt_of_le (by decide) (limbs_bounds s.width).1
  simp only [resultOf_of_exec (exec_fromI32_eq sg _), resultOf_of_exec (exec_fromU32_eq sg _),
    resultOf_of_exec (exec_fromI64_eq sg _), resultOf_of_exec (exec_fromU64_eq sg _), Option.some_inj, hw]
  refine ⟨fun ht => ?signExtended, fun ht => ?zeroExtended, ?bit31, ?bit63⟩
  case signExtended =>
    obtain ⟨hlo, hhi⟩ := halves_signExtend (natLow s)
    have hlow : natLow t = natLow s := (congrArg _ ht).trans hlo
    have hhigh : natHigh t = fillLimb (natLow s).msb := (congrArg _ ht).trans hhi
    rw [← msb_natHigh, hlow, hhigh, msb_fillLimb, extend64_same_fill]
  case zeroExtended =>
    obtain ⟨hlo, hhi⟩ := halves_setWidth (natLow s)
    have hlow : natLow t = natLow s := (congrArg _ ht).trans hlo
    have hhigh : natHigh t = 0 := (congrArg _ ht).trans hhi
    rw [hlow, hhigh, extend64_same_fill]
  case bit31 =>
    rw [extend32_fill_eq_iff (by omega), fillLimb_eq_zero_iff, natLow, BitVec.msb_eq_getLsbD_last]
    simp
  case bit63 =>
    rw [extend64_fill_eq_iff hn, fillLimb_eq_zero_iff, BitVec.msb_eq_getLsbD_last]

end Sys2Proof.Machine
end

section
/-! FROMBYTES, TOBYTES, FROMLIMBS and PLUS (R80, R81, R86, R100). -/
namespace Sys2Proof.Machine

/-- Every other length is refused before a byte is read (R80). -/
theorem exec_fromBytes_of_blen_ne (sg : Signedness) {s : State} (h : s.request.blen ≠ 4 * s.width.limbs) :
    exec (.fromBytes sg) s = .next (s.answered (.signal .invalidArgument)) := by
  have he : exec (.fromBytes sg) s = _ := execFromBytes_eq s
  rwa [limbCount_eq, if_pos h] at he

/-- Settles O23: the limbs are made of four bytes each, and their value is the value of the bytes. -/
theorem fromBytesBuildsTheLittleEndianValue : Obligations.FromBytesBuildsTheLittleEndianValue := by
  refine ⟨⟨rfl, rfl⟩, fun s sg => ⟨fun hlen => ?_, exec_fromBytes_of_blen_ne sg⟩⟩
  refine ⟨_, exec_fromBytes_of_blen sg hlen, length_limbsOfBytes .., fun i hi => ?_, valU_limbsOfBytes_byteAt hlen 0⟩
  rw [limb_limbsOfBytes _ _ i hi, toNat_limbOfBytes]
  rfl

/-- Settles O28: the bytes are those of the layout. -/
theorem toBytesDeliversTheLayout : Obligations.ToBytesDeliversTheLayout :=
  ⟨⟨rfl, rfl⟩, fun s sg => ⟨_, exec_toBytes_eq sg s, length_layout .., fun _ hi _ hj => layout_getElem? _ _ hi hj⟩⟩

/-- Settles O24: both copy the operand limb by limb, and a vector of N limbs is its own copy. -/
theorem fromLimbsAndPlusAreTheIdentity : Obligations.FromLimbsAndPlusAreTheIdentity := by
  refine ⟨⟨rfl, rfl⟩, ⟨rfl, rfl⟩, fun s sg hA => ?_⟩
  have hcopy : copyLimbs s.width.limbs s.request.A = s.request.A := build_limb hA
  have hfrom : exec (.fromLimbs sg) s = .next (s.answered (.limbs (copyLimbs s.width.limbs s.request.A))) := rfl
  have hplus : exec (.plus sg) s = .next (s.answered (.limbs (copyLimbs s.width.limbs s.request.A))) := rfl
  rw [hfrom, hplus, hcopy]
  exact ⟨rfl, rfl⟩

end Sys2Proof.Machine
end

section
/-! A vector of N limbs as an integer modulo 2^W (R16, R22). The limb loops of the arithmetic engine are the ring operations
on these residues (R101 to R104), and N limbs are determined by theirs: an identity between vectors is one in the ring. -/
namespace Sys2Proof.Machine

theorem limbs_pos (w : Width) : 0 < w.limbs := Nat.lt_of_lt_of_le (by decide) (limbs_bounds w).1

/-- The residue class modulo 2^(32·n) of val_u (R16). -/
def residue (n : Nat) (v : LimbVec) : ZMod (2 ^ (32 * n)) := (valU v : ZMod (2 ^ (32 * n)))

theorem intCast_valU (n : Nat) (v : LimbVec) : ((valU v : Int) : ZMod (2 ^ (32 * n))) = residue n v := Int.cast_natCast _

/-- The residue of a vector is that of an integer exactly when val_u is the integer's remainder (R16). -/
theorem residue_eq_intCast_iff {n : Nat} {v : LimbVec} (h : v.length = n) (x : Int) :
    residue n v = x ↔ (valU v : Int) = x % 2 ^ (32 * n) := by
  have hv : (valU v : Int) < 2 ^ (32 * n) := by exact_mod_cast valU_lt_of_length h
  rw [← intCast_valU, ZMod.intCast_eq_intCast_iff', Nat.cast_pow, Nat.cast_ofNat,
    Int.emod_eq_of_lt (Int.natCast_nonneg _) hv]

/-- Two vectors of n limbs with the same residue are the same vector (R22). -/
theorem eq_of_residue_eq {n : Nat} {u v : LimbVec} (hu : u.length = n) (hv : v.length = n)
    (h : residue n u = residue n v) : u = v := by
  have hu' := (residue_eq_intCast_iff hu _).mp (h.trans (intCast_valU n v).symm)
  have hv' := (residue_eq_intCast_iff hv _).mp (intCast_valU n v).symm
  exact valU_inj (hu.trans hv.symm) (by exact_mod_cast hu'.trans hv'.symm)

@[simp] theorem residue_limbsOf (n : Nat) (x : Int) : residue n (limbsOf n x) = x :=
  (residue_eq_intCast_iff (length_limbsOf n x) x).mpr (valU_limbsOf n x)

/-- The signed and the unsigned value have the same residue (R24). -/
theorem intCast_valS {n : Nat} {v : LimbVec} (h : v.length = n) : (valS n v : ZMod (2 ^ (32 * n))) = residue n v :=
  ((residue_eq_intCast_iff h _).mpr (valS_emod h).symm).symm

/-- An integer of the signed range is the signed value of the vector with its residue (R16). -/
theorem valS_eq_of_residue {n : Nat} {v : LimbVec} (h : v.length = n) (hn : 0 < n) {x : Int}
    (hlo : -(2 ^ (32 * n - 1)) ≤ x) (hhi : x < 2 ^ (32 * n - 1)) (hx : residue n v = x) : valS n v = x :=
  valS_eq_of_emod h hn hlo hhi ((residue_eq_intCast_iff h x).mp hx)

/-! The residues of the constants (R33, R34). -/

@[simp] theorem residue_zeroVec (n : Nat) : residue n (zeroVec n) = 0 := by rw [residue, valU_zeroVec, Nat.cast_zero]

@[simp] theorem residue_oneVec {n : Nat} (hn : 0 < n) : residue n (oneVec n) = 1 := by
  rw [residue, valU_oneVec hn, Nat.cast_one]

@[simp] theorem residue_maxU (n : Nat) : residue n (maxU n) = -1 := by
  have h : valU (maxU n) + 1 = 2 ^ (32 * n) := valU_build_ones n
  rw [residue, eq_neg_iff_add_eq_zero, ← Nat.cast_add_one, h, ZMod.natCast_self]

/-- 2^(W−1) is its own negative modulo 2^W, which is why `MinS` is (R101). -/
theorem residue_minS_add_self {n : Nat} (hn : 0 < n) : residue n (minS n) + residue n (minS n) = 0 := by
  rw [residue, valU_minS hn, ← Nat.cast_add, ← two_mul, ← two_pow_bits hn, ZMod.natCast_self]

@[simp] theorem neg_residue_minS {n : Nat} (hn : 0 < n) : -residue n (minS n) = residue n (minS n) :=
  neg_eq_of_add_eq_zero_left (residue_minS_add_self hn)

@[simp] theorem residue_maxS {n : Nat} (hn : 0 < n) : residue n (maxS n) = residue n (minS n) - 1 := by
  rw [residue, residue, valU_maxS hn, valU_minS hn, Nat.cast_sub Nat.one_le_two_pow, Nat.cast_one]

/-! The residues of the results. -/

theorem residue_addWithCarry {n : Nat} (c : Nat) {a b : LimbVec} (ha : a.length = n) (hb : b.length = n) :
    residue n (addWithCarry n c a b) = c + residue n a + residue n b := by
  rw [residue, valU_addWithCarry c ha hb, ZMod.natCast_mod, Nat.cast_add, Nat.cast_add, residue, residue]

@[simp] theorem residue_addLimbs {n : Nat} {a b : LimbVec} (ha : a.length = n) (hb : b.length = n) :
    residue n (addLimbs n a b) = residue n a + residue n b := by
  rw [addLimbs, residue_addWithCarry 0 ha hb, Nat.cast_zero, zero_add]

@[simp] theorem residue_notLimbs {n : Nat} {a : LimbVec} (ha : a.length = n) :
    residue n (notLimbs n a) = -residue n a - 1 := by
  have h := congrArg (Nat.cast : Nat → ZMod (2 ^ (32 * n))) (valU_build_not n a)
  rw [build_limb ha, ZMod.natCast_self, Nat.cast_add, Nat.cast_add, Nat.cast_one] at h
  rw [residue, residue]
  linear_combination h

/-- Complementing and adding One negates: -a - 1 + 1 = -a (R101). -/
@[simp] theorem residue_negLimbs {n : Nat} (hn : 0 < n) {a : LimbVec} (ha : a.length = n) :
    residue n (negLimbs n a) = -residue n a := by
  rw [negLimbs, residue_addLimbs (length_notLimbs ..) (length_oneVec n), residue_notLimbs ha, residue_oneVec hn,
    sub_add_cancel]

@[simp] theorem residue_subLimbs {n : Nat} (hn : 0 < n) {a b : LimbVec} (ha : a.length = n) (hb : b.length = n) :
    residue n (subLimbs n a b) = residue n a - residue n b := by
  rw [subLimbs, residue_addLimbs ha (length_negLimbs ..), residue_negLimbs hn hb, sub_eq_add_neg]

/-- The carry into limb 0 is the 1 that the complement lacks (R103). -/
theorem residue_subOnePass {n : Nat} {a b : LimbVec} (ha : a.length = n) (hb : b.length = n) :
    residue n (subOnePass n a b) = residue n a - residue n b := by
  rw [subOnePass, residue_addWithCarry 1 ha (length_notLimbs ..), residue_notLimbs hb]
  ring

end Sys2Proof.Machine
end

section
/-! The identities of R101 to R104 and R111 between limb vectors, each read off the ring of residues, and the value laws that
the spec derives for the results. -/
namespace Sys2Proof.Machine

theorem notLimbs_notLimbs {n : Nat} {a : LimbVec} (ha : a.length = n) : notLimbs n (notLimbs n a) = a :=
  eq_of_residue_eq (length_notLimbs ..) ha (by simp [ha])

theorem negLimbs_negLimbs {n : Nat} (hn : 0 < n) {a : LimbVec} (ha : a.length = n) : negLimbs n (negLimbs n a) = a :=
  eq_of_residue_eq (length_negLimbs ..) ha (by simp [hn, ha])

theorem negLimbs_zeroVec {n : Nat} (hn : 0 < n) : negLimbs n (zeroVec n) = zeroVec n :=
  eq_of_residue_eq (length_negLimbs ..) (length_zeroVec n) (by simp [hn])

theorem negLimbs_minS {n : Nat} (hn : 0 < n) : negLimbs n (minS n) = minS n :=
  eq_of_residue_eq (length_negLimbs ..) (length_minS n) (by simp [hn])

theorem negLimbs_oneVec {n : Nat} (hn : 0 < n) : negLimbs n (oneVec n) = maxU n :=
  eq_of_residue_eq (length_negLimbs ..) (length_maxU n) (by simp [hn])

theorem addLimbs_zeroVec {n : Nat} {a : LimbVec} (ha : a.length = n) : addLimbs n a (zeroVec n) = a :=
  eq_of_residue_eq (length_addLimbs ..) ha (by simp [ha])

theorem addLimbs_comm {n : Nat} {a b : LimbVec} (ha : a.length = n) (hb : b.length = n) :
    addLimbs n a b = addLimbs n b a :=
  eq_of_residue_eq (length_addLimbs ..) (length_addLimbs ..) (by simp [ha, hb, add_comm])

theorem addLimbs_negLimbs {n : Nat} (hn : 0 < n) {a : LimbVec} (ha : a.length = n) :
    addLimbs n a (negLimbs n a) = zeroVec n :=
  eq_of_residue_eq (length_addLimbs ..) (length_zeroVec n) (by simp [hn, ha])

theorem addLimbs_maxU_oneVec {n : Nat} (hn : 0 < n) : addLimbs n (maxU n) (oneVec n) = zeroVec n :=
  eq_of_residue_eq (length_addLimbs ..) (length_zeroVec n) (by simp [hn])

theorem addLimbs_maxS_oneVec {n : Nat} (hn : 0 < n) : addLimbs n (maxS n) (oneVec n) = minS n :=
  eq_of_residue_eq (length_addLimbs ..) (length_minS n) (by simp [hn])

theorem addLimbs_minS_minS {n : Nat} (hn : 0 < n) : addLimbs n (minS n) (minS n) = zeroVec n :=
  eq_of_residue_eq (length_addLimbs ..) (length_zeroVec n) (by simp [residue_minS_add_self hn])

theorem subLimbs_zeroVec {n : Nat} (hn : 0 < n) {a : LimbVec} (ha : a.length = n) : subLimbs n a (zeroVec n) = a := by
  rw [subLimbs, negLimbs_zeroVec hn, addLimbs_zeroVec ha]

theorem subLimbs_zeroVec_oneVec {n : Nat} (hn : 0 < n) : subLimbs n (zeroVec n) (oneVec n) = maxU n :=
  eq_of_residue_eq (length_subLimbs ..) (length_maxU n) (by simp [hn])

theorem subLimbs_minS_oneVec {n : Nat} (hn : 0 < n) : subLimbs n (minS n) (oneVec n) = maxS n :=
  eq_of_residue_eq (length_subLimbs ..) (length_maxS n) (by simp [hn])

/-- `MinS` is its own negation, so subtracting it is adding it (R103). -/
theorem subLimbs_minS {n : Nat} (hn : 0 < n) (a : LimbVec) : subLimbs n a (minS n) = addLimbs n a (minS n) := by
  rw [subLimbs, negLimbs_minS hn]

/-- The one-pass form computes the difference (R103). -/
theorem subLimbs_eq_subOnePass {n : Nat} (hn : 0 < n) {a b : LimbVec} (ha : a.length = n) (hb : b.length = n) :
    subLimbs n a b = subOnePass n a b :=
  eq_of_residue_eq (length_subLimbs ..) (length_subOnePass ..) (by simp [hn, ha, hb, residue_subOnePass])

/-- Addition is addition of the signed values too (R102). -/
theorem addLimbs_eq_limbsOf_valS {n : Nat} {a b : LimbVec} (ha : a.length = n) (hb : b.length = n) :
    addLimbs n a b = limbsOf n (valS n a + valS n b) :=
  eq_of_residue_eq (length_addLimbs ..) (length_limbsOf ..) (by simp [ha, hb, intCast_valS])

/-- Subtraction is subtraction of the unsigned values modulo 2^W (R103). -/
theorem valU_subLimbs_eq_emod {n : Nat} (hn : 0 < n) {a b : LimbVec} (ha : a.length = n) (hb : b.length = n) :
    (valU (subLimbs n a b) : Int) = ((valU a : Int) - valU b) % 2 ^ (32 * n) :=
  (residue_eq_intCast_iff (length_subLimbs ..) _).mp (by
    rw [residue_subLimbs hn ha hb, Int.cast_sub, intCast_valU, intCast_valU])

/-- The complement of a signed value x is -x - 1, which the signed range always holds (R104). -/
theorem valS_notLimbs {n : Nat} (hn : 0 < n) {a : LimbVec} (ha : a.length = n) :
    valS n (notLimbs n a) = -valS n a - 1 := by
  obtain ⟨hlo, hhi⟩ := valS_range ha hn
  exact valS_eq_of_residue (length_notLimbs ..) hn (by omega) (by omega) (by simp [ha, intCast_valS])

/-- The lowest signed value is that of `MinS` only (R34). -/
theorem eq_minS_of_valS {n : Nat} (hn : 0 < n) {a : LimbVec} (ha : a.length = n)
    (h : valS n a = -(2 ^ (32 * n - 1))) : a = minS n :=
  eq_of_residue_eq ha (length_minS n) (by
    rw [← intCast_valS ha, h, ← valS_minS hn, intCast_valS (length_minS n)])

/-- Negation of a signed value x is -x, unless that lies above the signed range (R101). -/
theorem valS_negLimbs {n : Nat} (hn : 0 < n) {a : LimbVec} (ha : a.length = n) (hne : a ≠ minS n) :
    valS n (negLimbs n a) = -valS n a := by
  obtain ⟨hlo, hhi⟩ := valS_range ha hn
  have hmin : valS n a ≠ -(2 ^ (32 * n - 1)) := fun h => hne (eq_minS_of_valS hn ha h)
  exact valS_eq_of_residue (length_negLimbs ..) hn (by omega) (by omega) (by simp [hn, ha, intCast_valS])

end Sys2Proof.Machine
end

section
/-! The arithmetic engine's requests (R101 to R113): what each operation answers, and the obligations. -/
namespace Sys2Proof.Machine

theorem exec_neg_eq (sg : Signedness) (s : State) :
    exec (.neg sg) s = .next (s.answered (.limbs (negLimbs s.width.limbs s.request.A))) := rfl

theorem exec_add_eq (sg : Signedness) (s : State) :
    exec (.add sg) s = .next (s.answered (.limbs (addLimbs s.width.limbs s.request.A s.request.B))) := rfl

theorem exec_sub_eq (sg : Signedness) (s : State) :
    exec (.sub sg) s = .next (s.answered (.limbs (subLimbs s.width.limbs s.request.A s.request.B))) := rfl

theorem exec_not_eq (sg : Signedness) (s : State) :
    exec (.not sg) s = .next (s.answered (.limbs (notLimbs s.width.limbs s.request.A))) := rfl

theorem resultOf_neg (sg : Signedness) (s : State) :
    resultOf (.neg sg) s = some (negLimbs s.width.limbs s.request.A) := resultOf_of_exec (exec_neg_eq sg s)

theorem resultOf_add (sg : Signedness) (s : State) :
    resultOf (.add sg) s = some (addLimbs s.width.limbs s.request.A s.request.B) := resultOf_of_exec (exec_add_eq sg s)

theorem resultOf_sub (sg : Signedness) (s : State) :
    resultOf (.sub sg) s = some (subLimbs s.width.limbs s.request.A s.request.B) := resultOf_of_exec (exec_sub_eq sg s)

theorem resultOf_not (sg : Signedness) (s : State) :
    resultOf (.not sg) s = some (notLimbs s.width.limbs s.request.A) := resultOf_of_exec (exec_not_eq sg s)

/-- Settles O31: the result is NOT and the addition of One by definition, and the corner cases are identities. -/
theorem negIsComplementPlusOne : Obligations.NegIsComplementPlusOne := by
  refine ⟨⟨rfl, rfl⟩, fun s sg _ => ?_⟩
  have hn := limbs_pos s.width
  refine ⟨_, _, exec_neg_eq sg s, length_negLimbs .., resultOf_not sg s, resultOf_add sg _, ?zero, ?minS, ?one⟩
  case zero => exact fun hA => by rw [hA, negLimbs_zeroVec hn]
  case minS => exact fun hA => by rw [hA, negLimbs_minS hn]
  case one => exact fun hA => by rw [hA, negLimbs_oneVec hn]

/-- Settles O32: the carries are those of `carryInto` from 0. -/
theorem addIsRippleCarry : Obligations.AddIsRippleCarry := by
  refine ⟨⟨rfl, rfl⟩, fun s sg _ => ?_⟩
  have hn := limbs_pos s.width
  refine ⟨_, carryInto 0 s.request.A s.request.B, exec_add_eq sg s, length_addLimbs .., rfl, fun i hi => ?limb,
    ?maxUOne, ?maxSOne, ?minSMinS⟩
  case limb =>
    refine ⟨?_, rfl, carryInto_le_one (Nat.zero_le 1) _ _ (i + 1)⟩
    rw [addLimbs, addWithCarry, limb_build _ _ i hi, BitVec.toNat_ofNat]
  case maxUOne => exact fun hA hB => by rw [hA, hB, addLimbs_maxU_oneVec hn]
  case maxSOne => exact fun hA hB => by rw [hA, hB, addLimbs_maxS_oneVec hn]
  case minSMinS => exact fun hA hB => by rw [hA, hB, addLimbs_minS_minS hn]

/-- Settles O33: the result is the sum with the negation by definition, and the corner cases are identities. -/
theorem subIsAdditionOfTheNegation : Obligations.SubIsAdditionOfTheNegation := by
  refine ⟨⟨rfl, rfl⟩, fun s sg ⟨hA, hB, _⟩ => ?_⟩
  have hn := limbs_pos s.width
  refine ⟨_, _, exec_sub_eq sg s, length_subLimbs .., resultOf_neg sg _, resultOf_add sg _, ?self, ?zero, ?zeroOne,
    ?minSOne, ?minS⟩
  case self => exact fun h => by rw [h, subLimbs, addLimbs_negLimbs hn hB]
  case zero => exact fun h => by rw [h, subLimbs_zeroVec hn hA]
  case zeroOne => exact fun h1 h2 => by rw [h1, h2, subLimbs_zeroVec_oneVec hn]
  case minSOne => exact fun h1 h2 => by rw [h1, h2, subLimbs_minS_oneVec hn]
  case minS => exact fun h => by rw [resultOf_add, h, subLimbs_minS hn]

/-- Settles O34: the complement of a limb x is 2^32 - 1 - x, and complementing twice restores the vector. -/
theorem notComplementsEveryLimb : Obligations.NotComplementsEveryLimb := by
  refine ⟨⟨rfl, rfl⟩, fun s sg hA => ?_⟩
  refine ⟨_, exec_not_eq sg s, length_notLimbs .., fun i hi => ?limb, ?double⟩
  case limb => rw [notLimbs, limb_build _ _ i hi, BitVec.toNat_not]
  case double => rw [resultOf_not, withAB_width, withAB_A, notLimbs_notLimbs hA]

/-- Settles O37: the results are named, and each law is the value lemma of its operation. -/
theorem arithmeticValueLawsHold : Obligations.ArithmeticValueLawsHold := by
  intro s sg ⟨hA, hB, _⟩
  have hn := limbs_pos s.width
  rw [bits_eq]
  exact ⟨_, _, _, _, resultOf_add sg s, resultOf_sub sg s, resultOf_neg sg s, resultOf_not sg s,
    valU_addLimbs hA hB, addLimbs_eq_limbsOf_valS hA hB,
    valU_subLimbs_eq_emod hn hA hB, subLimbs_eq_subOnePass hn hA hB,
    valU_negLimbs hn hA, valS_negLimbs hn hA,
    valU_notLimbs hA, valS_notLimbs hn hA⟩

/-- Settles O38: the requests are evaluated, which leaves the identities of R111. -/
theorem twosComplementLawsHold : Obligations.TwosComplementLawsHold := by
  intro s sg hA
  have hn := limbs_pos s.width
  simp only [resultOf_neg, resultOf_not, resultOf_add, withAB_width, withAB_A, withAB_B, Option.some_inj]
  refine ⟨?negation, ?complementPlusOne, addLimbs_zeroVec hA, ?wraparound, ⟨_, rfl⟩, ⟨_, rfl⟩⟩
  case negation =>
    rintro u rfl
    exact ⟨negLimbs_negLimbs hn hA, addLimbs_negLimbs hn hA⟩
  case complementPlusOne =>
    rintro u rfl
    rw [negLimbs]
  case wraparound => rw [addLimbs_comm (length_oneVec _) (length_maxU _), addLimbs_maxU_oneVec hn]

/-- Settles O35: each result is built limb by limb with the bitwise function. -/
theorem andOrXorWorkLimbByLimb : Obligations.AndOrXorWorkLimbByLimb :=
  ⟨⟨rfl, rfl⟩, ⟨rfl, rfl⟩, ⟨rfl, rfl⟩, fun _ _ =>
    ⟨⟨_, rfl, length_build .., fun i hi => limb_build _ _ i hi⟩,
      ⟨_, rfl, length_build .., fun i hi => limb_build _ _ i hi⟩,
      ⟨_, rfl, length_build .., fun i hi => limb_build _ _ i hi⟩⟩⟩

/-- Settles O36: each of the three raises the signal before it reads a port. -/
theorem mulDivModSignalNotImplemented : Obligations.MulDivModSignalNotImplemented :=
  ⟨⟨rfl, rfl⟩, ⟨rfl, rfl⟩, ⟨rfl, rfl⟩, fun s _ =>
    ⟨raiseSignal_eq .notImplemented s, raiseSignal_eq .notImplemented s, raiseSignal_eq .notImplemented s⟩⟩

end Sys2Proof.Machine
end

section
/-! Bit by bit to numbers: SHL multiplies and SHR divides by 2^amt (R132, R133). The bits are those of `testBit_shlLimbs` and
`testBit_shrLimbs`; the laws for extreme amounts, for amount 0 and for two shifts in a row follow from bits or from numbers. -/
namespace Sys2Proof.Machine

/-- Two vectors of n limbs with the same W bits are the same vector (R14, R22). -/
theorem eq_of_testBit {n : Nat} {u v : LimbVec} (hu : u.length = n) (hv : v.length = n)
    (h : ∀ p < 32 * n, (valU u).testBit p = (valU v).testBit p) : u = v := by
  refine valU_inj (hu.trans hv.symm) (Nat.eq_of_testBit_eq fun p => ?_)
  by_cases hp : p < 32 * n
  · exact h p hp
  · have hpow : 2 ^ (32 * n) ≤ 2 ^ p := Nat.pow_le_pow_right (by decide) (Nat.le_of_not_lt hp)
    rw [Nat.testBit_lt_two_pow ((valU_lt_of_length hu).trans_le hpow),
      Nat.testBit_lt_two_pow ((valU_lt_of_length hv).trans_le hpow)]

/-- The value under either reading, modulo 2^W, is the unsigned value (R24). -/
theorem val_emod (sg : Signedness) {n : Nat} {v : LimbVec} (h : v.length = n) :
    val sg n v % 2 ^ (32 * n) = (valU v : Int) := by
  cases sg with
  | signed => exact valS_emod h
  | unsigned =>
    have hlt : (valU v : Int) < 2 ^ (32 * n) := by exact_mod_cast valU_lt_of_length h
    exact Int.emod_eq_of_lt (Int.natCast_nonneg _) hlt

/-- A vector is the limbs of its value under either reading (R16). -/
theorem limbsOf_val (sg : Signedness) {n : Nat} {v : LimbVec} (h : v.length = n) : limbsOf n (val sg n v) = v :=
  ((eq_limbsOf_iff h _).mpr (val_emod sg h).symm).symm

/-- Either reading tells vectors of n limbs apart (R22). -/
theorem val_inj {sg : Signedness} {n : Nat} {u v : LimbVec} (hu : u.length = n) (hv : v.length = n)
    (h : val sg n u = val sg n v) : u = v := by
  rw [← limbsOf_val sg hu, h, limbsOf_val sg hv]

/-- SHL is multiplication by 2^amt modulo 2^W (R132). -/
theorem valU_shlLimbs (n : Nat) (a : LimbVec) (amt : BitVec 32) :
    valU (shlLimbs n a amt) = valU a * 2 ^ amt.toNat % 2 ^ (32 * n) :=
  Nat.eq_of_testBit_eq fun p => by rw [testBit_shlLimbs, Nat.testBit_mod_two_pow, Nat.testBit_mul_two_pow]

/-- Unsigned SHR is the logical shift of the packed port (R64, R133). -/
theorem shrLimbs_unsigned_eq_unpackLimbs (n : Nat) (a : LimbVec) (amt : BitVec 32) :
    shrLimbs .unsigned n a amt = unpackLimbs n (packLimbs n a >>> amt.toNat) := by
  refine eq_of_testBit (length_shrLimbs ..) (length_unpackLimbs _) fun p hp => ?_
  rw [testBit_shrLimbs, valU_unpackLimbs, BitVec.testBit_toNat, BitVec.getLsbD_ushiftRight, packLimbs_getLsbD,
    ← valU_testBit, Nat.add_comm amt.toNat p]
  by_cases h : p + amt.toNat < 32 * n <;> simp [hp, h]

/-- Signed SHR is the arithmetic shift of the packed port (R64, R133). -/
theorem shrLimbs_signed_eq_unpackLimbs {n : Nat} (hn : 0 < n) {a : LimbVec} (ha : a.length = n) (amt : BitVec 32) :
    shrLimbs .signed n a amt = unpackLimbs n ((packLimbs n a).sshiftRight amt.toNat) := by
  have hmsb : (packLimbs n a).msb = signbit n a := by rw [← signbit_unpackLimbs hn, unpackLimbs_packLimbs ha]
  refine eq_of_testBit (length_shrLimbs ..) (length_unpackLimbs _) fun p hp => ?_
  rw [testBit_shrLimbs, valU_unpackLimbs, BitVec.testBit_toNat, BitVec.getLsbD_sshiftRight, packLimbs_getLsbD,
    ← valU_testBit, Nat.add_comm amt.toNat p, hmsb]
  by_cases h : p + amt.toNat < 32 * n <;> simp [hp, h, Nat.not_le.mpr hp]

/-- SHR is division by 2^amt, rounded down, under the reading it shifts by (R133). -/
theorem val_shrLimbs (sg : Signedness) {n : Nat} (hn : 0 < n) {a : LimbVec} (ha : a.length = n) (amt : BitVec 32) :
    val sg n (shrLimbs sg n a amt) = val sg n a / 2 ^ amt.toNat := by
  cases sg with
  | unsigned =>
    rw [val, val, shrLimbs_unsigned_eq_unpackLimbs, valU_unpackLimbs, BitVec.toNat_ushiftRight, toNat_packLimbs ha,
      Nat.shiftRight_eq_div_pow]
    push_cast
    rfl
  | signed =>
    rw [val, val, shrLimbs_signed_eq_unpackLimbs hn ha, valS_unpackLimbs hn, BitVec.toInt_sshiftRight,
      ← valS_unpackLimbs hn, unpackLimbs_packLimbs ha, Int.shiftRight_eq_div_pow]
    push_cast
    rfl

/-- The amount is not taken modulo W: a left shift by W or more leaves Zero (R135). -/
theorem shlLimbs_of_bits_le {n : Nat} {amt : BitVec 32} (h : 32 * n ≤ amt.toNat) (a : LimbVec) :
    shlLimbs n a amt = zeroVec n :=
  eq_of_testBit (length_shlLimbs ..) (length_zeroVec n) fun p hp => by
    rw [testBit_shlLimbs, valU_zeroVec, Nat.zero_testBit, decide_eq_false (by omega : ¬ amt.toNat ≤ p), Bool.false_and,
      Bool.and_false]

/-- A right shift by W or more leaves the fill bit in every place (R135). -/
theorem shrLimbs_of_bits_le {n : Nat} {amt : BitVec 32} (h : 32 * n ≤ amt.toNat) (sg : Signedness) (a : LimbVec) :
    shrLimbs sg n a amt = if sg = .signed ∧ signbit n a = true then maxU n else zeroVec n := by
  refine eq_of_testBit (length_shrLimbs ..) (by split <;> simp) fun p hp => ?_
  rw [testBit_shrLimbs, if_neg (by omega : ¬ p + amt.toNat < 32 * n)]
  by_cases hfill : sg = .signed ∧ signbit n a = true
  · simp [hfill, hp, valU_maxU]
  · simpa [if_neg hfill, hp, valU_zeroVec] using hfill

theorem shlLimbs_zero {n : Nat} {a : LimbVec} (ha : a.length = n) : shlLimbs n a 0 = a :=
  valU_inj ((length_shlLimbs ..).trans ha.symm) (by
    rw [valU_shlLimbs, show (0 : BitVec 32).toNat = 0 from rfl, pow_zero, Nat.mul_one,
      Nat.mod_eq_of_lt (valU_lt_of_length ha)])

theorem shrLimbs_zero (sg : Signedness) {n : Nat} (hn : 0 < n) {a : LimbVec} (ha : a.length = n) :
    shrLimbs sg n a 0 = a :=
  val_inj (length_shrLimbs ..) ha (by
    rw [val_shrLimbs sg hn ha, show (0 : BitVec 32).toNat = 0 from rfl, pow_zero, Int.ediv_one])

/-- A left shift never brings lost bits back, so two of them are one (R136). -/
theorem shlLimbs_shlLimbs {n : Nat} (v : LimbVec) {a b : BitVec 32} (h : a.toNat + b.toNat < 2 ^ 32) :
    shlLimbs n (shlLimbs n v a) b = shlLimbs n v (a + b) :=
  valU_inj (by simp) (by
    rw [valU_shlLimbs, valU_shlLimbs, valU_shlLimbs, BitVec.toNat_add_of_lt h, pow_add, Nat.mod_mul_mod, Nat.mul_assoc])

/-- Rounding down twice is rounding down once, so two right shifts under one `sg` are one (R136). -/
theorem shrLimbs_shrLimbs (sg : Signedness) {n : Nat} (hn : 0 < n) {v : LimbVec} (hv : v.length = n) {a b : BitVec 32}
    (h : a.toNat + b.toNat < 2 ^ 32) : shrLimbs sg n (shrLimbs sg n v a) b = shrLimbs sg n v (a + b) :=
  val_inj (sg := sg) (length_shrLimbs ..) (length_shrLimbs ..) (by
    rw [val_shrLimbs sg hn (length_shrLimbs ..), val_shrLimbs sg hn hv, val_shrLimbs sg hn hv, BitVec.toNat_add_of_lt h,
      pow_add, Int.ediv_ediv_of_nonneg (by positivity)])

/-- MinS has one bit, and a left shift by one loses it (R132). -/
theorem shlLimbs_minS_one {n : Nat} (hn : 0 < n) : shlLimbs n (minS n) 1 = zeroVec n :=
  valU_inj (by simp) (by
    rw [valU_shlLimbs, valU_minS hn, valU_zeroVec, show (1 : BitVec 32).toNat = 1 from rfl, pow_one, Nat.mul_comm,
      ← two_pow_bits hn, Nat.mod_self])

theorem val_zeroVec (sg : Signedness) {n : Nat} (hn : 0 < n) : val sg n (zeroVec n) = 0 := by
  cases sg with
  | signed => exact valS_zeroVec hn
  | unsigned => rw [val, valU_zeroVec, Nat.cast_zero]

theorem shrLimbs_zeroVec (sg : Signedness) {n : Nat} (hn : 0 < n) (amt : BitVec 32) :
    shrLimbs sg n (zeroVec n) amt = zeroVec n :=
  val_inj (sg := sg) (length_shrLimbs ..) (length_zeroVec n) (by
    rw [val_shrLimbs sg hn (length_zeroVec n), val_zeroVec sg hn, Int.zero_ediv])

theorem minS_ne_zeroVec {n : Nat} (hn : 0 < n) : minS n ≠ zeroVec n := fun h => by
  have hval := congrArg valU h
  rw [valU_minS hn, valU_zeroVec] at hval
  exact absurd hval (by positivity)

/-- The two readings of SHR differ exactly when the fill is set for one of them and a bit of it comes in (R133). -/
theorem shrLimbs_signed_ne_unsigned_iff {n : Nat} (hn : 0 < n) {a : LimbVec} (ha : a.length = n) (amt : BitVec 32) :
    shrLimbs .signed n a amt ≠ shrLimbs .unsigned n a amt ↔ signbit n a = true ∧ 0 < amt.toNat := by
  constructor
  · contrapose!
    intro h
    rcases Nat.eq_zero_or_pos amt.toNat with h0 | hpos
    · have hamt : amt = 0 := BitVec.eq_of_toNat_eq h0
      rw [hamt, shrLimbs_zero _ hn ha, shrLimbs_zero _ hn ha]
    · have hsign : signbit n a = false := by simpa using fun hs => (h hs).not_gt hpos
      rw [shrLimbs, shrLimbs, shiftFill_eq, shiftFill_eq, hsign, Bool.and_false, Bool.and_false]
  · rintro ⟨hsign, hpos⟩ heq
    have htop := congrArg (fun v => (valU v).testBit (32 * n - 1)) heq
    simp [testBit_shrLimbs, hsign, hn, show ¬ 32 * n - 1 + amt.toNat < 32 * n by omega] at htop

end Sys2Proof.Machine
end

section
/-! The scatter forms and the limb forms of the two shifts (R132 to R134). In the model a complementary distance 32 - s exists
for s > 0 only. As a distance of a `BitVec` shift it is 32 for s = 0 and leaves 0, so that one formula says what the guarded
form computes in both cases. -/
namespace Sys2Proof.Machine

theorem bitOffset_eq_zero_iff (amt : BitVec 32) : bitOffset amt = 0 ↔ amt.toNat % 32 = 0 := Fin.ext_iff

theorem ushiftRight_coDistance_zero (x : Limb) {s : Fin 32} (h : s = 0) : x >>> (32 - s.val) = 0 := by
  rw [h]
  exact BitVec.ushiftRight_eq_zero le_rfl

theorem shiftLeft_coDistance_zero (x : Limb) {s : Fin 32} (h : s = 0) : x <<< (32 - s.val) = 0 := by
  rw [h]
  exact BitVec.shiftLeft_eq_zero le_rfl

/-- Limb j of SHL: the low part of limb j - k and the high part of limb j - k - 1, where they exist (R132). -/
theorem shlLimb_eq_or (a : LimbVec) (k : Nat) (s : Fin 32) (j : Nat) : shlLimb a k s j =
    (if k ≤ j then limb a (j - k) <<< s.val else 0) |||
      (if k + 1 ≤ j then limb a (j - k - 1) >>> (32 - s.val) else 0) := by
  rcases lt_trichotomy j k with h | rfl | h
  · simp [shlLimb, h, Nat.not_le.mpr h, h.le]
  · simp [shlLimb, shl32]
  · rw [if_pos h.le, if_pos (Nat.succ_le_of_lt h), shlLimb, if_neg h.not_gt, if_neg h.ne']
    split
    next h0 => simp [ushiftRight_coDistance_zero _ h0, shl32]
    next => rfl

/-- Limb j of SHR: the high part of limb j + k and the low part of limb j + k + 1 of the continued operand (R133). -/
theorem shrLimb_eq_or (n : Nat) (a : LimbVec) (fill : Limb) (k : Nat) (s : Fin 32) (j : Nat) : shrLimb n a fill k s j =
    ext n a fill (j + k) >>> s.val ||| ext n a fill (j + k + 1) <<< (32 - s.val) := by
  rw [shrLimb]
  split
  next h0 => simp [h0]
  next => rfl

theorem length_ite_orInto (r : LimbVec) (c : Prop) [Decidable c] (p : Nat) (x : Limb) :
    (if c then orInto r p x else r).length = r.length := by split <;> simp

/-- What a contribution to limb p leaves in limb j of the scratch result, `c` being the bound on p (R132, R133). -/
theorem limb_ite_orInto {r : LimbVec} {c : Prop} [Decidable c] {p : Nat} (x : Limb) (j : Nat) (hp : c → p < r.length) :
    limb (if c then orInto r p x else r) j = limb r j ||| (if c ∧ j = p then x else 0) := by
  by_cases hc : c
  · rw [if_pos hc, limb_orInto r j x (hp hc)]
    by_cases hj : j = p <;> simp [hc, hj]
  · simp [hc]

/-- A cross-limb contribution, guarded by s > 0 (R134), of a value `x` that is `y`, and 0 for s = 0. -/
theorem limb_guarded_orInto {r : LimbVec} {c : Prop} [Decidable c] {p : Nat} {s : Fin 32} (x : s ≠ 0 → Limb) {y : Limb}
    (hx : ∀ h, x h = y) (hy : s = 0 → y = 0) (j : Nat) (hp : c → p < r.length) :
    limb (if h : s = 0 then r else if c then orInto r p (x h) else r) j =
      limb r j ||| (if c ∧ j = p then y else 0) := by
  split
  next h0 => simp [hy h0]
  next h0 => rw [hx h0, limb_ite_orInto y j hp]

/-- What source limb i of SHL contributes to limb j of the scratch result (R132). -/
theorem limb_scatterLeft {n : Nat} (a : LimbVec) (k : Nat) (s : Fin 32) {r : LimbVec} (hr : r.length = n) (i : Nat)
    {j : Nat} (hj : j < n) : limb (scatterLeft n a k s r i) j = limb r j |||
      (if k ≤ j ∧ j - k = i then limb a i <<< s.val else 0) |||
      (if k + 1 ≤ j ∧ j - k - 1 = i then limb a i >>> (32 - s.val) else 0) := by
  have hlow : i + k ≤ n - 1 ∧ j = i + k ↔ k ≤ j ∧ j - k = i := by omega
  have hhigh : i + k + 1 ≤ n - 1 ∧ j = i + k + 1 ↔ k + 1 ≤ j ∧ j - k - 1 = i := by omega
  rw [scatterLeft, limb_guarded_orInto (fun h => shr32 (limb a i) (coDistance s h)) (fun _ => rfl)
    (ushiftRight_coDistance_zero _), limb_ite_orInto]
  · simp only [hlow, hhigh, shl32]
  · omega
  · rw [length_ite_orInto]
    omega

/-- What source limb i of SHR contributes to limb j of the scratch result (R133). The source of either part
is j + k or j + k + 1, with no lower bound on j, so the conditions of `limb_foldl_scatter` are `True`. -/
theorem limb_scatterRight {n : Nat} (a : LimbVec) (k : Nat) (s : Fin 32) {r : LimbVec} (hr : r.length = n) {i : Nat}
    (hi : i < n) (j : Nat) : limb (scatterRight a k s r i) j = limb r j |||
      (if True ∧ j + k = i then limb a i >>> s.val else 0) |||
      (if True ∧ j + k + 1 = i then limb a i <<< (32 - s.val) else 0) := by
  have hhigh : k ≤ i ∧ j = i - k ↔ True ∧ j + k = i := by simp; omega
  have hlow : k + 1 ≤ i ∧ j = i - k - 1 ↔ True ∧ j + k + 1 = i := by simp; omega
  rw [scatterRight, limb_guarded_orInto (fun h => shl32 (limb a i) (coDistance s h)) (fun _ => rfl)
    (shiftLeft_coDistance_zero _), limb_ite_orInto]
  · simp only [hlow, hhigh, shr32]
  · omega
  · rw [length_ite_orInto]
    omega

/-- A contribution that comes from source limb q is there once the sources go beyond q. -/
theorem ite_lt_or_ite_eq {c : Prop} [Decidable c] (q m : Nat) (x : Nat → Limb) :
    (if c ∧ q < m then x q else 0) ||| (if c ∧ q = m then x m else 0) = if c ∧ q < m + 1 then x q else 0 := by
  rcases lt_trichotomy q m with h | rfl | h
  · simp [h, h.ne, h.trans (Nat.lt_succ_self m)]
  · simp
  · simp [h.not_gt, h.ne', Nat.not_lt.mpr (Nat.succ_le_of_lt h)]

theorem length_foldl_scatter {f : LimbVec → Nat → LimbVec} (hlen : ∀ r i, (f r i).length = r.length) (r : LimbVec)
    (is : List Nat) : (is.foldl f r).length = r.length := by
  induction is generalizing r with
  | nil => rfl
  | cons i is ih => rw [List.foldl_cons, ih, hlen]

/-- The scatter loop: if the only contributions to limb j are `x p` from source limb p and `y q` from source limb q, under the
conditions `c` and `d`, then after m source limbs it holds those of them that came from limbs below m (R132, R133). -/
theorem limb_foldl_scatter {n j p q : Nat} {f : LimbVec → Nat → LimbVec} {x y : Nat → Limb} {c d : Prop} [Decidable c]
    [Decidable d] (hlen : ∀ r i, (f r i).length = r.length)
    (hstep : ∀ r i, r.length = n → i < n →
      limb (f r i) j = limb r j ||| (if c ∧ p = i then x i else 0) ||| (if d ∧ q = i then y i else 0))
    {m : Nat} (hm : m ≤ n) : limb ((List.range m).foldl f (zeroVec n)) j =
      (if c ∧ p < m then x p else 0) ||| (if d ∧ q < m then y q else 0) := by
  induction m with
  | zero => simp [limb_zeroVec]
  | succ m ih =>
    have hlength : ((List.range m).foldl f (zeroVec n)).length = n :=
      (length_foldl_scatter hlen _ _).trans (length_zeroVec n)
    rw [List.range_succ, List.foldl_append, List.foldl_cons, List.foldl_nil, hstep _ m hlength hm, ih (by omega),
      ← ite_lt_or_ite_eq p m x, ← ite_lt_or_ite_eq q m y]
    ac_rfl

/-- The scatter form of SHL is its limb form (R132). -/
theorem shlScatter_eq_shlLimbs (n : Nat) (a : LimbVec) (amt : BitVec 32) : shlScatter n a amt = shlLimbs n a amt := by
  have hlen := length_scatterLeft n a (limbOffset amt) (bitOffset amt)
  refine limbVec_ext ((length_foldl_scatter hlen _ _).trans (length_zeroVec n)) (length_shlLimbs ..) fun j hj => ?_
  rw [shlScatter, limb_foldl_scatter hlen (fun r i hr _ => limb_scatterLeft a _ _ hr i hj) le_rfl, shlLimbs,
    limb_build _ _ j hj, shlLimb_eq_or]
  simp only [show j - limbOffset amt < n by omega, show j - limbOffset amt - 1 < n by omega, and_true]

theorem length_fillWholeLimbs (n k : Nat) (fill : Limb) (r : LimbVec) : (fillWholeLimbs n k fill r).length = n :=
  length_build ..

theorem length_fillVacatedBits (n k : Nat) (s : Fin 32) (fill : Limb) (r : LimbVec) :
    (fillVacatedBits n k s fill r).length = r.length := by
  rw [fillVacatedBits]
  split
  · rfl
  · exact length_ite_orInto ..

/-- Limb j after the step that 90_conflicts.md C1 adds (R133). -/
theorem limb_fillVacatedBits {n : Nat} (k : Nat) (s : Fin 32) (fill : Limb) {r : LimbVec} (hr : r.length = n) (j : Nat) :
    limb (fillVacatedBits n k s fill r) j =
      limb r j ||| (if k + 1 ≤ n ∧ j = n - k - 1 then fill <<< (32 - s.val) else 0) :=
  limb_guarded_orInto (fun h => shl32 fill (coDistance s h)) (fun _ => rfl) (shiftLeft_coDistance_zero fill) j
    (by omega)

/-- The fill, written out (R131). -/
theorem shiftFill_eq_ite (sg : Signedness) (n : Nat) (a : LimbVec) :
    shiftFill sg n a = if sg = .signed ∧ signbit n a = true then 0xFFFFFFFF else 0 := by
  simp only [shiftFill_eq, fillLimb, Bool.and_eq_true, decide_eq_true_eq]

/-- A limb of the fill, completed from a fill limb above, is the fill (R131). -/
theorem fillLimb_or_shifted (b : Bool) (s : Fin 32) :
    fillLimb b >>> s.val ||| fillLimb b <<< (32 - s.val) = fillLimb b := by
  by_cases h : s = 0
  · simp [h]
  · exact fillLimb_shifted b s h

/-- The scatter form of SHR is its normative limb form: below limb n - k - 1 both parts come from the operand, that limb takes
its low part from the fill, and the limbs above it are the fill (R133). -/
theorem shrScatter_eq_shrLimbs (sg : Signedness) (n : Nat) (a : LimbVec) (amt : BitVec 32) :
    shrScatter sg n a amt = shrLimbs sg n a amt := by
  have hlen := length_scatterRight a (limbOffset amt) (bitOffset amt)
  refine limbVec_ext ((length_fillVacatedBits ..).trans (length_fillWholeLimbs ..)) (length_shrLimbs ..) fun j hj => ?_
  rw [shrScatter, limb_fillVacatedBits _ _ _ (length_fillWholeLimbs ..), fillWholeLimbs, limb_build _ _ j hj,
    limb_foldl_scatter hlen (fun r i hr hi => limb_scatterRight a _ _ hr hi j) le_rfl, shrLimbs, limb_build _ _ j hj,
    shrLimb_eq_or, shiftFill_eq]
  generalize limbOffset amt = k
  rcases lt_trichotomy (j + k + 1) n with h | rfl | h
  · simp [ext, h, show j + k < n by omega, show ¬ n - k ≤ j by omega, show j ≠ n - k - 1 by omega]
  · rw [if_neg (by omega), if_pos (by omega : k + 1 ≤ j + k + 1 ∧ j = j + k + 1 - k - 1)]
    simp [ext]
  · rw [if_pos (by omega : n - k ≤ j), if_neg (by omega : ¬ (k + 1 ≤ n ∧ j = n - k - 1)), ext, if_neg (by omega), ext,
      if_neg (by omega), fillLimb_or_shifted]
    exact BitVec.or_zero

end Sys2Proof.Machine
end

section
/-! The shift engine's requests (R130 to R137): what each of the two answers, and the obligations. -/
namespace Sys2Proof.Machine

theorem exec_shl_eq (sg : Signedness) (s : State) :
    exec (.shl sg) s = .next (s.answered (.limbs (shlLimbs s.width.limbs s.request.A s.request.amt))) := rfl

theorem exec_shr_eq (sg : Signedness) (s : State) :
    exec (.shr sg) s = .next (s.answered (.limbs (shrLimbs sg s.width.limbs s.request.A s.request.amt))) := rfl

theorem resultOf_shl_withShift (sg : Signedness) (s : State) (v : LimbVec) (amt : BitVec 32) :
    resultOf (.shl sg) (s.withShift v amt) = some (shlLimbs s.width.limbs v amt) :=
  resultOf_of_exec (exec_shl_eq sg (s.withShift v amt))

theorem resultOf_shr_withShift (sg : Signedness) (s : State) (v : LimbVec) (amt : BitVec 32) :
    resultOf (.shr sg) (s.withShift v amt) = some (shrLimbs sg s.width.limbs v amt) :=
  resultOf_of_exec (exec_shr_eq sg (s.withShift v amt))

/-- The two readings of SHR answer alike exactly when they compute the same vector. -/
theorem exec_shr_eq_iff (sg sg' : Signedness) (s : State) : exec (.shr sg) s = exec (.shr sg') s ↔
    shrLimbs sg s.width.limbs s.request.A s.request.amt = shrLimbs sg' s.width.limbs s.request.A s.request.amt := by
  refine ⟨fun h => ?_, fun h => by rw [exec_shr_eq, exec_shr_eq, h]⟩
  have hres : resultOf (.shr sg) s = resultOf (.shr sg') s := by rw [resultOf, h, resultOf]
  rwa [resultOf_of_exec (exec_shr_eq sg s), resultOf_of_exec (exec_shr_eq sg' s), Option.some_inj] at hres

/-- Settles O39: the model computes the limb form, which the scatter loop computes too. -/
theorem shlFollowsTheScatterAlgorithm : Obligations.ShlFollowsTheScatterAlgorithm :=
  ⟨⟨rfl, rfl⟩, fun s sg _ => by rw [shlScatter_eq_shlLimbs, exec_shl_eq]⟩

/-- Settles O40: the limb form by its cases, and the value bit by bit. -/
theorem shlLimbFormAndValueLawHold : Obligations.ShlLimbFormAndValueLawHold := by
  intro s sg _
  dsimp only
  rw [bits_eq]
  refine ⟨_, exec_shl_eq sg s, length_shlLimbs .., fun j hj => ?_, valU_shlLimbs ..⟩
  rw [shlLimbs, limb_build _ _ j hj]
  refine if_congr Iff.rfl rfl (if_congr Iff.rfl rfl ?_)
  split
  next h0 => rw [if_pos ((bitOffset_eq_zero_iff _).mp h0)]; exact BitVec.or_zero.symm
  next h0 => rw [if_neg (mt (bitOffset_eq_zero_iff _).mpr h0)]; rfl

/-- Settles O41: the limb form by its cases, the scatter loop by what each limb receives, and the two readings by the top
bit. -/
theorem shrFollowsItsLimbAndScatterForms : Obligations.ShrFollowsItsLimbAndScatterForms := by
  refine ⟨⟨rfl, rfl⟩, fun s hA => ⟨fun sg => ?forms, ?readings⟩⟩
  case forms =>
    dsimp only
    refine ⟨_, exec_shr_eq sg s, length_shrLimbs .., fun j hj => ?_, (shrScatter_eq_shrLimbs ..).symm⟩
    rw [shrLimbs, limb_build _ _ j hj, shiftFill_eq_ite]
    by_cases h0 : bitOffset s.request.amt = 0
    · rw [if_pos ((bitOffset_eq_zero_iff _).mp h0)]
      exact dif_pos h0
    · rw [if_neg (mt (bitOffset_eq_zero_iff _).mpr h0)]
      exact dif_neg h0
  case readings =>
    rw [Ne, exec_shr_eq_iff]
    exact shrLimbs_signed_ne_unsigned_iff (limbs_pos s.width) hA s.request.amt

/-- Settles O42: a vector is the limbs of its value, and the value is the quotient. -/
theorem shrValueLawHolds : Obligations.ShrValueLawHolds := by
  intro s sg hA
  rw [← val_shrLimbs sg (limbs_pos s.width) hA, limbsOf_val sg (length_shrLimbs ..), exec_shr_eq]

/-- Settles O43: no bit of the operand is left in any place. -/
theorem shiftsByTheWidthOrMoreLeaveTheFill : Obligations.ShiftsByTheWidthOrMoreLeaveTheFill := by
  intro s hamt
  rw [bits_eq] at hamt
  refine ⟨fun sg => ?_, ?_, ?_⟩
  · rw [exec_shl_eq, shlLimbs_of_bits_le hamt]
  · rw [exec_shr_eq, shrLimbs_of_bits_le hamt, if_neg (by simp)]
  · simp only [exec_shr_eq, shrLimbs_of_bits_le hamt, true_and]

/-- The sum of two amounts within the width is an amount (R8, R130). -/
theorem add_lt_two_pow_of_le_bits {w : Width} {x : Nat} (h : x ≤ w.bits) : x < 2 ^ 32 := by
  have hle : w.bits ≤ 512 := by cases w <;> decide
  omega

/-- Settles O44: the laws are identities of the two limb forms; MinS shifted left by one is Zero, which no right shift turns
back into MinS. -/
theorem shiftLawsOfTheDocumentHold : Obligations.ShiftLawsOfTheDocumentHold := by
  intro s sg v hv
  have hn := limbs_pos s.width
  simp only [resultOf_shl_withShift, resultOf_shr_withShift, Option.some_inj]
  refine ⟨shlLimbs_zero hv, shrLimbs_zero sg hn hv, fun a b hab => ?composition, ?notRestored⟩
  case composition => exact ⟨_, rfl, shlLimbs_shlLimbs v (add_lt_two_pow_of_le_bits hab)⟩
  case notRestored =>
    refine ⟨minS s.width.limbs, 1, zeroVec s.width.limbs, length_minS _, shlLimbs_minS_one hn, ?_⟩
    rw [shrLimbs_zeroVec sg hn, ne_eq, Option.some_inj]
    exact (minS_ne_zeroVec hn).symm

/-- Settles O45: each composition is one of multiplications modulo 2^W, or of divisions rounded down. -/
theorem shiftsComposeUpToTheAmountLimit : Obligations.ShiftsComposeUpToTheAmountLimit := by
  intro s sg v hv a b hab
  simp only [resultOf_shl_withShift, resultOf_shr_withShift, Option.some_inj]
  exact ⟨⟨_, rfl, shlLimbs_shlLimbs v hab⟩, ⟨_, rfl, shrLimbs_shrLimbs sg (limbs_pos s.width) hv hab⟩⟩

end Sys2Proof.Machine
end

section
/-! The three-way comparison of two numbers (R150), by which of the three relations holds, and the conditions on it that the
relational operators answer with (R151 to R154). -/
namespace Sys2Proof.Machine

theorem orderOfValues_eq_less_iff (x y : Int) : orderOfValues x y = .less ↔ x < y := by
  rw [orderOfValues]
  split_ifs with hlt heq <;> simp [hlt]

theorem orderOfValues_eq_equal_iff (x y : Int) : orderOfValues x y = .equal ↔ x = y := by
  rw [orderOfValues]
  split_ifs with hlt heq
  · simp [hlt.ne]
  · simp [heq]
  · simp [heq]

theorem orderOfValues_eq_greater_iff (x y : Int) : orderOfValues x y = .greater ↔ y < x := by
  rw [orderOfValues]
  split_ifs with hlt heq
  · simp [hlt.le]
  · simp [heq]
  · simp only [true_iff]
    omega

/-- Comparing two numbers is comparing their difference with 0. -/
theorem orderOfValues_sub_zero (x y : Int) : orderOfValues (x - y) 0 = orderOfValues x y := by
  simp only [orderOfValues, sub_neg, sub_eq_zero]

theorem orderOfValues_beq_less (x y : Int) : (orderOfValues x y == .less) = decide (x < y) := by
  rw [beq_eq_decide, decide_eq_decide, orderOfValues_eq_less_iff]

theorem orderOfValues_beq_greater (x y : Int) : (orderOfValues x y == .greater) = decide (x > y) := by
  rw [beq_eq_decide, decide_eq_decide, orderOfValues_eq_greater_iff]

theorem orderOfValues_bne_greater (x y : Int) : (orderOfValues x y != .greater) = decide (x ≤ y) := by
  rw [bne, orderOfValues_beq_greater, ← decide_not, decide_eq_decide, not_lt]

theorem orderOfValues_bne_less (x y : Int) : (orderOfValues x y != .less) = decide (x ≥ y) := by
  rw [bne, orderOfValues_beq_less, ← decide_not, decide_eq_decide, not_lt]

theorem flagLess_eq_beq (o : Order) : flagLess o = (o == .less) := by cases o <;> rfl

theorem flagGreater_eq_beq (o : Order) : flagGreater o = (o == .greater) := by cases o <;> rfl

theorem order_inj {o o' : Order} : Response.order o = Response.order o' ↔ o = o' :=
  ⟨fun h => Option.some.inj (congrArg Response.ord h), congrArg Response.order⟩

end Sys2Proof.Machine
end

section
/-! The comparator's requests (R150 to R156): what each operation answers, and the obligations. CMP answers with the order of
the two values, the relational operators with a condition on it. -/
namespace Sys2Proof.Machine

theorem flagOf_of_exec {i : Instr} {s : State} {b : Bool} (h : exec i s = .next (s.answered (.truth b))) :
    flagOf i s = some b := by
  rw [flagOf, h]
  rfl

theorem equalLimbs_eq_true_iff (n : Nat) (a b : LimbVec) :
    equalLimbs n a b = true ↔ ∀ i < n, limb a i = limb b i := by
  simp only [equalLimbs, List.all_eq_true, List.mem_range, beq_iff_eq]

theorem val_eq_val_iff {sg : Signedness} {n : Nat} {u v : LimbVec} (hu : u.length = n) (hv : v.length = n) :
    val sg n u = val sg n v ↔ u = v := ⟨val_inj hu hv, congrArg _⟩

/-! What the operations compute from the limbs. -/

theorem exec_cmp_eq (sg : Signedness) (s : State) : exec (.cmp sg) s =
    .next (s.answered (.order (compareLimbs sg s.width.limbs s.request.A s.request.B))) := rfl

theorem exec_lt_eq (sg : Signedness) (s : State) : exec (.lt sg) s =
    .next (s.answered (.truth (compareLimbs sg s.width.limbs s.request.A s.request.B == .less))) := by
  rw [← flagLess_eq_beq]
  rfl

theorem exec_le_eq (sg : Signedness) (s : State) : exec (.le sg) s =
    .next (s.answered (.truth (compareLimbs sg s.width.limbs s.request.A s.request.B != .greater))) := by
  rw [bne, ← flagGreater_eq_beq]
  rfl

theorem exec_gt_eq (sg : Signedness) (s : State) : exec (.gt sg) s =
    .next (s.answered (.truth (compareLimbs sg s.width.limbs s.request.A s.request.B == .greater))) := by
  rw [← flagGreater_eq_beq]
  rfl

theorem exec_ge_eq (sg : Signedness) (s : State) : exec (.ge sg) s =
    .next (s.answered (.truth (compareLimbs sg s.width.limbs s.request.A s.request.B != .less))) := by
  rw [bne, ← flagLess_eq_beq]
  rfl

theorem exec_eq_eq (sg : Signedness) (s : State) : exec (.eq sg) s =
    .next (s.answered (.truth (equalLimbs s.width.limbs s.request.A s.request.B))) := rfl

/-! What that says of the values, when the operands have N limbs. -/

section
variable {s : State} (sg : Signedness) (hA : s.request.A.length = s.width.limbs)
  (hB : s.request.B.length = s.width.limbs)
include hA hB

theorem exec_cmp_of_length : exec (.cmp sg) s = .next (s.answered (.order
    (orderOfValues (val sg s.width.limbs s.request.A) (val sg s.width.limbs s.request.B)))) := by
  rw [exec_cmp_eq, compareLimbs_eq sg hA hB]

theorem exec_lt_of_length : exec (.lt sg) s = .next (s.answered (.truth
    (decide (val sg s.width.limbs s.request.A < val sg s.width.limbs s.request.B)))) := by
  rw [exec_lt_eq, compareLimbs_eq sg hA hB, orderOfValues_beq_less]

theorem exec_le_of_length : exec (.le sg) s = .next (s.answered (.truth
    (decide (val sg s.width.limbs s.request.A ≤ val sg s.width.limbs s.request.B)))) := by
  rw [exec_le_eq, compareLimbs_eq sg hA hB, orderOfValues_bne_greater]

theorem exec_gt_of_length : exec (.gt sg) s = .next (s.answered (.truth
    (decide (val sg s.width.limbs s.request.A > val sg s.width.limbs s.request.B)))) := by
  rw [exec_gt_eq, compareLimbs_eq sg hA hB, orderOfValues_beq_greater]

theorem exec_ge_of_length : exec (.ge sg) s = .next (s.answered (.truth
    (decide (val sg s.width.limbs s.request.A ≥ val sg s.width.limbs s.request.B)))) := by
  rw [exec_ge_eq, compareLimbs_eq sg hA hB, orderOfValues_bne_less]

theorem exec_eq_of_length :
    exec (.eq sg) s = .next (s.answered (.truth (decide (s.request.A = s.request.B)))) := by
  rw [exec_eq_eq, Bool.eq_iff_iff.mpr ((equalLimbs_iff hA hB).trans decide_eq_true_iff.symm)]

theorem flagOf_eq_iff : flagOf (.eq sg) s = some true ↔ s.request.A = s.request.B := by
  rw [flagOf_of_exec (exec_eq_of_length sg hA hB), Option.some_inj, decide_eq_true_iff]

theorem responseOf_cmp_iff (o : Order) : responseOf (exec (.cmp sg) s) = some (.order o) ↔
    orderOfValues (val sg s.width.limbs s.request.A) (val sg s.width.limbs s.request.B) = o := by
  rw [exec_cmp_of_length sg hA hB, ← order_inj]
  exact Option.some_inj

end

/-- Settles O46: the limb loop computes the order of the values. -/
theorem cmpIsTheOrderOfTheValues : Obligations.CmpIsTheOrderOfTheValues :=
  ⟨⟨rfl, rfl⟩, fun _ sg ⟨hA, hB, _⟩ => exec_cmp_of_length sg hA hB⟩

/-- Settles O47: the operators as conditions on what CMP answers, then as relations of the values. -/
theorem relationalOperatorsDeriveFromCmp : Obligations.RelationalOperatorsDeriveFromCmp :=
  ⟨⟨rfl, rfl⟩, ⟨rfl, rfl⟩, ⟨rfl, rfl⟩, ⟨rfl, rfl⟩, fun s sg ⟨hA, hB, _⟩ =>
    ⟨⟨_, exec_cmp_eq sg s, exec_lt_eq sg s, exec_le_eq sg s, exec_gt_eq sg s, exec_ge_eq sg s⟩,
      exec_lt_of_length sg hA hB, exec_le_of_length sg hA hB, exec_gt_of_length sg hA hB, exec_ge_of_length sg hA hB⟩⟩

/-- Settles O48: equality of vectors is equality limb by limb. -/
theorem eqHoldsOfEqualVectorsOnly : Obligations.EqHoldsOfEqualVectorsOnly := by
  refine ⟨⟨rfl, rfl⟩, fun s sg ⟨hA, hB, _⟩ => ⟨exec_eq_of_length sg hA hB, ?_⟩⟩
  rw [flagOf_of_exec (exec_eq_eq sg s), Option.some_inj, equalLimbs_eq_true_iff]

/-- A difference is Zero exactly when the operands are equal (R103, R155). -/
theorem subLimbs_eq_zeroVec_iff {n : Nat} (hn : 0 < n) {a b : LimbVec} (ha : a.length = n) (hb : b.length = n) :
    subLimbs n a b = zeroVec n ↔ a = b := by
  constructor
  · intro h
    have hres := residue_subLimbs hn ha hb
    rw [h, residue_zeroVec] at hres
    exact eq_of_residue_eq ha hb (sub_eq_zero.mp hres.symm)
  · rintro rfl
    rw [subLimbs, addLimbs_negLimbs hn ha]

/-- Settles O49: each of the three conditions is equality of the operands. -/
theorem eqAgreesWithCmpAndSub : Obligations.EqAgreesWithCmpAndSub := by
  intro s sg sg' ⟨hA, hB, _⟩
  rw [flagOf_eq_iff sg hA hB]
  constructor
  · rw [responseOf_cmp_iff sg' hA hB, orderOfValues_eq_equal_iff, val_eq_val_iff hA hB]
  · rw [resultOf_sub, Option.some_inj, subLimbs_eq_zeroVec_iff (limbs_pos s.width) hA hB]

section
variable {s : State} (sg : Signedness) {a b : LimbVec} (ha : a.length = s.width.limbs) (hb : b.length = s.width.limbs)
include ha hb

theorem flagOf_lt_withAB : flagOf (.lt sg) (s.withAB a b) =
    some (decide (val sg s.width.limbs a < val sg s.width.limbs b)) :=
  flagOf_of_exec (exec_lt_of_length (s := s.withAB a b) sg ha hb)

theorem flagOf_le_withAB : flagOf (.le sg) (s.withAB a b) =
    some (decide (val sg s.width.limbs a ≤ val sg s.width.limbs b)) :=
  flagOf_of_exec (exec_le_of_length (s := s.withAB a b) sg ha hb)

theorem flagOf_gt_withAB : flagOf (.gt sg) (s.withAB a b) =
    some (decide (val sg s.width.limbs a > val sg s.width.limbs b)) :=
  flagOf_of_exec (exec_gt_of_length (s := s.withAB a b) sg ha hb)

theorem flagOf_ge_withAB : flagOf (.ge sg) (s.withAB a b) =
    some (decide (val sg s.width.limbs a ≥ val sg s.width.limbs b)) :=
  flagOf_of_exec (exec_ge_of_length (s := s.withAB a b) sg ha hb)

/-- EQ in the words of the other operators: the values are equal (R22, R155). -/
theorem flagOf_eq_withAB : flagOf (.eq sg) (s.withAB a b) =
    some (decide (val sg s.width.limbs a = val sg s.width.limbs b)) := by
  rw [flagOf_of_exec (exec_eq_of_length (s := s.withAB a b) sg ha hb), Option.some_inj, decide_eq_decide]
  exact (val_eq_val_iff ha hb).symm

theorem responseOf_cmp_withAB_iff (o : Order) : responseOf (exec (.cmp sg) (s.withAB a b)) = some (.order o) ↔
    orderOfValues (val sg s.width.limbs a) (val sg s.width.limbs b) = o :=
  responseOf_cmp_iff (s := s.withAB a b) sg ha hb o

end

/-- Settles O50: every answer is a relation of the values, and these are integers. -/
theorem orderingIsAStrictTotalOrder : Obligations.OrderingIsAStrictTotalOrder := by
  intro s sg a b c ha hb hc
  rw [flagOf_lt_withAB sg ha hb, flagOf_eq_withAB sg ha hb, flagOf_gt_withAB sg ha hb, flagOf_lt_withAB sg ha ha,
    flagOf_lt_withAB sg hb hc, flagOf_lt_withAB sg ha hc, flagOf_le_withAB sg ha hb, flagOf_ge_withAB sg ha hb]
  simp only [Option.map_some, Option.some_inj, decide_eq_true_eq, decide_eq_false_iff_not]
  refine ⟨?trichotomy, lt_irrefl _, lt_trans, ?converse, ?le, ?ge⟩
  case trichotomy =>
    rcases lt_trichotomy (val sg s.width.limbs a) (val sg s.width.limbs b) with h | h | h
    · exact .inl ⟨h, h.ne, h.asymm⟩
    · exact .inr (.inl ⟨h.not_lt, h, h.not_gt⟩)
    · exact .inr (.inr ⟨h.asymm, h.ne', h⟩)
  case converse =>
    rw [responseOf_cmp_withAB_iff sg ha hb, responseOf_cmp_withAB_iff sg hb ha, orderOfValues_eq_less_iff,
      orderOfValues_eq_greater_iff]
  case le => rw [← decide_not, decide_eq_decide, not_lt]
  case ge => rw [← decide_not, decide_eq_decide, not_lt]

end Sys2Proof.Machine
end

section
/-! The reference comparison (R157) compares the difference of N limbs with 0, and that difference is the true one unless it
leaves the signed range, where 2^W comes off or is added. -/
namespace Sys2Proof.Machine

/-- The sign bit says that the signed value is negative (R16, R23). -/
theorem signbit_iff_valS_neg {n : Nat} {v : LimbVec} (h : v.length = n) : signbit n v = true ↔ valS n v < 0 := by
  have hlt : (valU v : Int) < 2 ^ (32 * n) := by exact_mod_cast valU_lt_of_length h
  rw [valS]
  cases signbit n v
  · simp
  · simpa using hlt

/-- The reference method: Zero and the sign bit of the difference are the order of its signed value and 0 (R157). -/
theorem cmpRef_eq_orderOfValues {n : Nat} (hn : 0 < n) (a b : LimbVec) :
    cmpRef n a b = orderOfValues (valS n (subLimbs n a b)) 0 := by
  have hlen := length_subLimbs n a b
  have hzero : equalLimbs n (subLimbs n a b) (zeroVec n) = true ↔ valS n (subLimbs n a b) = 0 := by
    rw [equalLimbs_iff hlen (length_zeroVec n), ← val_eq_val_iff (sg := .signed) hlen (length_zeroVec n),
      val_zeroVec .signed hn, val]
  simp only [cmpRef, hzero, signbit_iff_valS_neg hlen]
  split_ifs with h0 hneg
  · exact ((orderOfValues_eq_equal_iff _ _).mpr h0).symm
  · exact ((orderOfValues_eq_less_iff _ _).mpr hneg).symm
  · exact ((orderOfValues_eq_greater_iff _ _).mpr (by omega)).symm

section
variable {n : Nat} (hn : 0 < n) {a b : LimbVec} (ha : a.length = n) (hb : b.length = n)
include hn ha hb

/-- The difference of N limbs is the one number of the signed range that is congruent to the true difference (R103). -/
theorem valS_subLimbs_eq {k : Int} (h : inRange .signed n (valS n a - valS n b + k * 2 ^ (32 * n))) :
    valS n (subLimbs n a b) = valS n a - valS n b + k * 2 ^ (32 * n) := by
  have hmod : ((2 ^ (32 * n) : Int) : ZMod (2 ^ (32 * n))) = 0 := by exact_mod_cast ZMod.natCast_self (2 ^ (32 * n))
  refine valS_eq_of_residue (length_subLimbs ..) hn h.1 h.2 ?_
  rw [residue_subLimbs hn ha hb, Int.cast_add, Int.cast_mul, hmod, mul_zero, add_zero, Int.cast_sub, intCast_valS ha,
    intCast_valS hb]

/-- Where the true difference is representable, the reference method is right (R157). -/
theorem cmpRef_of_inRange (h : inRange .signed n (valS n a - valS n b)) :
    cmpRef n a b = orderOfValues (valS n a) (valS n b) := by
  have hsub := valS_subLimbs_eq hn ha hb (k := 0)
  rw [zero_mul, add_zero] at hsub
  rw [cmpRef_eq_orderOfValues hn, hsub h, orderOfValues_sub_zero]

/-- Where it is not, the method sees the difference with 2^W taken off or added, which has the other sign (R157). -/
theorem cmpRef_of_not_inRange (h : ¬ inRange .signed n (valS n a - valS n b)) :
    cmpRef n a b = if valS n a < valS n b then .greater else .less := by
  obtain ⟨halo, hahi⟩ := valS_range ha hn
  obtain ⟨hblo, hbhi⟩ := valS_range hb hn
  have hpow : (2 : Int) ^ (32 * n) = 2 * 2 ^ (32 * n - 1) := by exact_mod_cast two_pow_bits hn
  rw [inRange] at h
  rw [cmpRef_eq_orderOfValues hn]
  split_ifs with hlt
  · rw [valS_subLimbs_eq hn ha hb (k := 1) ⟨by omega, by omega⟩, orderOfValues_eq_greater_iff]
    omega
  · rw [valS_subLimbs_eq hn ha hb (k := -1) ⟨by omega, by omega⟩, orderOfValues_eq_less_iff]
    omega

/-- The reference method errs exactly on overflow: equal operands do not overflow (R157). -/
theorem cmpRef_ne_compareLimbs_iff :
    cmpRef n a b ≠ compareLimbs .signed n a b ↔ ¬ inRange .signed n (valS n a - valS n b) := by
  have hcmp : compareLimbs .signed n a b = orderOfValues (valS n a) (valS n b) := compareLimbs_eq .signed ha hb
  rw [hcmp]
  refine ⟨fun hne h => hne (cmpRef_of_inRange hn ha hb h), fun h heq => ?_⟩
  rw [cmpRef_of_not_inRange hn ha hb h] at heq
  split_ifs at heq with hlt
  · exact hlt.asymm ((orderOfValues_eq_greater_iff _ _).mp heq.symm)
  · exact hlt ((orderOfValues_eq_less_iff _ _).mp heq.symm)

end

/-! The cycle of R157: with v the value of 0x55…5, the signed values are 0, v and −v − 1, and only the difference of the
last two overflows. -/

/-- 0x55…5 is a third of the largest unsigned number. -/
theorem three_mul_valU_fives (n : Nat) : 3 * valU (build n fun _ => 0x55555555) + 1 = 2 ^ (32 * n) := by
  induction n with
  | zero => rfl
  | succ n ih =>
    rw [valU_build_succ, show 32 * (n + 1) = 32 * n + 32 by omega, pow_add, ← ih,
      show (0x55555555 : Limb).toNat = (2 ^ 32 - 1) / 3 from rfl]
    ring_nf

theorem notLimbs_fives (n : Nat) : notLimbs n (build n fun _ => 0x55555555) = build n fun _ => 0xAAAAAAAA :=
  build_congr fun i hi => by rw [limb_build _ _ i hi]; rfl

theorem cmpRef_cycle {n : Nat} (hn : 0 < n) :
    cmpRef n (build n fun _ => 0x55555555) (zeroVec n) = .greater ∧
    cmpRef n (build n fun _ => 0xAAAAAAAA) (build n fun _ => 0x55555555) = .greater ∧
    cmpRef n (zeroVec n) (build n fun _ => 0xAAAAAAAA) = .greater := by
  have hlen := length_build n fun _ => (0x55555555 : Limb)
  have hlenz := length_notLimbs n (build n fun _ => 0x55555555)
  have hthird : 3 * (valU (build n fun _ => 0x55555555) : Int) + 1 = 2 ^ (32 * n) := by
    exact_mod_cast three_mul_valU_fives n
  have hpow : (2 : Int) ^ (32 * n) = 2 * 2 ^ (32 * n - 1) := by exact_mod_cast two_pow_bits hn
  have hbig : (2 : Int) < 2 ^ (32 * n - 1) := by
    exact_mod_cast Nat.pow_lt_pow_right (a := 2) (m := 1) (n := 32 * n - 1) (by decide) (by omega)
  have hy := valS_of_lt hlen hn (by zify; omega)
  have hz := valS_notLimbs hn hlen
  have hx := valS_zeroVec hn
  rw [← notLimbs_fives]
  refine ⟨?fivesZero, ?tensFives, ?zeroTens⟩
  case fivesZero =>
    rw [cmpRef_of_inRange hn hlen (length_zeroVec n) ⟨by omega, by omega⟩, orderOfValues_eq_greater_iff]
    omega
  case tensFives =>
    rw [cmpRef_of_not_inRange hn hlenz hlen (fun h => absurd h.1 (by omega)), if_pos (by omega)]
  case zeroTens =>
    rw [cmpRef_of_inRange hn (length_zeroVec n) hlenz ⟨by omega, by omega⟩, orderOfValues_eq_greater_iff]
    omega

/-- Settles O51: the overflow condition, the opposite order on overflow, and the cycle. -/
theorem referenceComparisonErrsExactlyOnOverflow : Obligations.ReferenceComparisonErrsExactlyOnOverflow :=
  fun w _ _ ha hb => ⟨cmpRef_ne_compareLimbs_iff (limbs_pos w) ha hb, cmpRef_of_not_inRange (limbs_pos w) ha hb,
    cmpRef_cycle (limbs_pos w)⟩

end Sys2Proof.Machine
end

section
/-! The number of a bridge sequence (R170): its last byte is signed, so its sign and its length bound it. -/
namespace Sys2Proof.Machine

theorem exists_eq_concat {b : ByteSeq} {k : Nat} (h : b.length = k + 1) : ∃ c x, b = c ++ [x] ∧ c.length = k := by
  have hne : b ≠ [] := List.ne_nil_of_length_eq_add_one h
  exact ⟨b.dropLast, b.getLast hne, (List.dropLast_append_getLast hne).symm, by simp [h]⟩

/-- The sign of a sequence is the top bit of its last byte (R170). -/
theorem bridgeNegative_concat (c : ByteSeq) (x : Byte) : bridgeNegative (c ++ [x]) = x.msb := by
  simp [bridgeNegative]

/-- The last byte counts as a signed number (R170). -/
theorem bval_concat (c : ByteSeq) (x : Byte) : bval (c ++ [x]) = valBytes c + 2 ^ (8 * c.length) * x.toInt := by
  have hval : valBytes (c ++ [x]) = valBytes c + 2 ^ (8 * c.length) * x.toNat := valBytes_append c [x]
  rw [bval, bridgeNegative_concat, hval, BitVec.toInt_eq_msb_cond, List.length_append, List.length_singleton,
    show 8 * (c.length + 1) = 8 * c.length + 8 by omega, pow_add]
  push_cast
  cases x.msb
  · simp
  · simp only [if_true]
    ring

/-- A last byte of zero adds nothing, and leaves no sign (R170). -/
theorem bval_concat_zero (c : ByteSeq) : bval (c ++ [0]) = valBytes c := by
  rw [bval_concat, show (0 : Byte).toInt = 0 from rfl, mul_zero, add_zero]

/-- A sequence is negative exactly when its number is (R170). -/
theorem bridgeNegative_iff_bval_neg (b : ByteSeq) : bridgeNegative b = true ↔ bval b < 0 := by
  have hlt : (valBytes b : Int) < 2 ^ (8 * b.length) := by exact_mod_cast valBytes_lt b
  rw [bval]
  cases bridgeNegative b
  · simp
  · simpa using hlt

/-- A sequence of at most 4·N bytes holds a number of the signed range (R16, R170). -/
theorem inRange_signed_bval {n : Nat} (hn : 0 < n) {b : ByteSeq} (hl : b.length ≤ 4 * n) :
    inRange .signed n (bval b) := by
  have hpos : (0 : Int) < 2 ^ (32 * n - 1) := by positivity
  rcases b.eq_nil_or_concat with rfl | ⟨c, x, rfl⟩
  · exact ⟨neg_nonpos.mpr hpos.le, hpos⟩
  · simp only [List.concat_eq_append, List.length_append, List.length_singleton] at hl ⊢
    have hlt : (valBytes c : Int) < 2 ^ (8 * c.length) := by exact_mod_cast valBytes_lt c
    have hlo : -2 ^ 7 ≤ x.toInt := BitVec.le_toInt x
    have hhi : x.toInt < 2 ^ 7 := BitVec.toInt_lt
    have hpow : (2 : Int) ^ (8 * c.length) * 2 ^ 7 ≤ 2 ^ (32 * n - 1) := by
      rw [← pow_add]
      exact pow_le_pow_right₀ (by decide) (by omega)
    rw [bval_concat]
    constructor <;> nlinarith

end Sys2Proof.Machine
end

section
/-! The numbers of a type are the values of its vectors, under either reading (R16). -/
namespace Sys2Proof.Machine

theorem inRange_val (sg : Signedness) {n : Nat} (hn : 0 < n) {v : LimbVec} (h : v.length = n) :
    inRange sg n (val sg n v) := by
  cases sg with
  | signed => exact valS_range h hn
  | unsigned =>
    have hlt : (valU v : Int) < 2 ^ (32 * n) := by exact_mod_cast valU_lt_of_length h
    exact ⟨Int.natCast_nonneg _, hlt⟩

theorem val_limbsOf {sg : Signedness} {n : Nat} (hn : 0 < n) {x : Int} (h : inRange sg n x) :
    val sg n (limbsOf n x) = x := by
  cases sg with
  | signed => exact valS_eq_of_emod (length_limbsOf n x) hn h.1 h.2 (valU_limbsOf n x)
  | unsigned => exact (valU_limbsOf n x).trans (Int.emod_eq_of_lt h.1 h.2)

end Sys2Proof.Machine
end

section
/-! The bridge sequence of a value (R171). -/
namespace Sys2Proof.Machine

/-- The layout of a value holds the signed value: the two sign bits are the same (R42, R170). -/
theorem bridgeNegative_layout {n : Nat} (hn : 0 < n) {v : LimbVec} (hv : v.length = n) :
    bridgeNegative (layout n v) = signbit n v := by
  have hlen := length_layout n v
  rw [Bool.eq_iff_iff, bridgeNegative_iff_le (by omega), signbit_iff hv hn, valBytes_layout hv, hlen,
    show 8 * (4 * n) = 32 * n by omega]

theorem bval_layout {n : Nat} (hn : 0 < n) {v : LimbVec} (hv : v.length = n) : bval (layout n v) = valS n v := by
  rw [bval, valS, bridgeNegative_layout hn hv, valBytes_layout hv, length_layout, show 8 * (4 * n) = 32 * n by omega]

/-- An unsigned value with its top bit set gets the disambiguating zero byte (R171). -/
theorem toBridge_of_long {sg : Signedness} {n : Nat} {v : LimbVec} (h : sg = .unsigned ∧ signbit n v = true) :
    toBridge sg n v = layout n v ++ [0] := by
  obtain ⟨rfl, hs⟩ := h
  rw [toBridge, if_pos hs]

/-- Every other value is handed over as its layout (R171). -/
theorem toBridge_of_not_long {sg : Signedness} {n : Nat} {v : LimbVec} (h : ¬ (sg = .unsigned ∧ signbit n v = true)) :
    toBridge sg n v = layout n v := by
  cases sg with
  | signed => rfl
  | unsigned => rw [toBridge, if_neg fun hs => h ⟨rfl, hs⟩]

/-- TOBRIDGE delivers the number (R171). -/
theorem bval_toBridge (sg : Signedness) {n : Nat} (hn : 0 < n) {v : LimbVec} (hv : v.length = n) :
    bval (toBridge sg n v) = val sg n v := by
  by_cases h : sg = .unsigned ∧ signbit n v = true
  · rw [toBridge_of_long h, bval_concat_zero, valBytes_layout hv, h.1, val]
  · rw [toBridge_of_not_long h, bval_layout hn hv]
    cases sg with
    | signed => rfl
    | unsigned => rw [val, valS, if_neg fun hs => h ⟨rfl, hs⟩, sub_zero]

end Sys2Proof.Machine
end

section
/-! FROMBRIDGE (R172): the sequences it accepts, by their bytes and by their length and number, and the value it builds. -/
namespace Sys2Proof.Machine

/-- The sequences that FROMBRIDGE accepts, by their bytes: one that fits, unless it is a negative one for an unsigned value,
and the tolerated over-long one (R172). -/
def acceptedBytes (sg : Signedness) (n : Nat) (b : ByteSeq) : Prop :=
  (b.length ≤ 4 * n ∧ ¬ (sg = .unsigned ∧ bridgeNegative b = true)) ∨ toleratedZero sg n b = true

/-- The lengths that R172 admits, given the number: 4·N bytes, and one byte more for an unsigned number with its top bit
set. -/
def admittedLength (sg : Signedness) (n : Nat) (b : ByteSeq) : Prop :=
  b.length ≤ 4 * n ∨ (sg = .unsigned ∧ b.length = 4 * n + 1 ∧ 2 ^ (32 * n - 1) ≤ bval b)

theorem limbsOfBytes_congr {n : Nat} {f g : Nat → Byte} (h : ∀ m < 4 * n, f m = g m) :
    limbsOfBytes n f = limbsOfBytes n g :=
  build_congr fun i hi => by rw [h _ (by omega), h _ (by omega), h _ (by omega), h _ (by omega)]

/-- The bytes that are read of a sequence of 4·N bytes or more are its first 4·N; neither a pad nor what follows them is
(R172). -/
theorem limbsOfBytes_byteAt_append {n : Nat} {c : ByteSeq} (hc : c.length = 4 * n) (d : ByteSeq) (p q : Byte) :
    limbsOfBytes n (byteAt (c ++ d) p) = limbsOfBytes n (byteAt c q) :=
  limbsOfBytes_congr fun m hm => by
    have hlt : m < c.length := by omega
    rw [byteAt, byteAt, List.getD_append _ _ _ _ hlt, List.getD_eq_getElem _ _ hlt, List.getD_eq_getElem _ _ hlt]

theorem length_of_toleratedZero {sg : Signedness} {n : Nat} {b : ByteSeq} (h : toleratedZero sg n b = true) :
    b.length = 4 * n + 1 := by
  obtain ⟨-, hl, -⟩ := (toleratedZero_iff sg n b).mp h
  exact hl

/-- The tolerated sequences are those with a zero byte after 4·N bytes whose top bit is set (R172). -/
theorem toleratedZero_concat {n : Nat} (hn : 0 < n) (sg : Signedness) {c : ByteSeq} (hc : c.length = 4 * n) (x : Byte) :
    toleratedZero sg n (c ++ [x]) = true ↔ sg = .unsigned ∧ x = 0 ∧ bridgeNegative c = true := by
  have hlast : (c ++ [x])[4 * n]? = some x := by rw [← hc, List.getElem?_concat_length]
  have htop : (c ++ [x]).getD (4 * n - 1) 0 = c.getD (4 * n - 1) 0 := by
    rw [List.getD_append _ _ _ _ (by omega)]
  have hne : 1 ≤ 4 * n := by omega
  simp only [toleratedZero_iff, bridgeNegative_iff, hlast, htop, hne, Option.some_inj, List.length_append, hc,
    List.length_singleton, true_and]

/-- A tolerated sequence is 4·N bytes and a zero byte (R172). -/
theorem exists_of_toleratedZero {n : Nat} (hn : 0 < n) {sg : Signedness} {b : ByteSeq}
    (h : toleratedZero sg n b = true) : ∃ c, c.length = 4 * n ∧ b = c ++ [0] := by
  obtain ⟨c, x, rfl, hc⟩ := exists_eq_concat (length_of_toleratedZero h)
  obtain ⟨-, rfl, -⟩ := (toleratedZero_concat hn sg hc x).mp h
  exact ⟨c, hc, rfl⟩

/-- An accepted sequence is built into limbs, four bytes each (R172). -/
theorem fromBridge_of_accepted {n : Nat} (hn : 0 < n) {sg : Signedness} {b : ByteSeq} (h : acceptedBytes sg n b) :
    fromBridge sg n b = some (limbsOfBytes n (byteAt b (bridgePad b))) := by
  rcases h with ⟨hl, hneg⟩ | htol
  · rw [fromBridge, if_pos hl, if_neg (by simpa using hneg)]
  · have hl := length_of_toleratedZero htol
    rw [fromBridge, if_neg (by omega), if_pos htol]
    obtain ⟨c, hc, rfl⟩ := exists_of_toleratedZero hn htol
    rw [limbsOfBytes_byteAt_append hc [0] 0 0, limbsOfBytes_byteAt_append hc]

/-- Every other sequence fails (R172). -/
theorem fromBridge_of_not_accepted {sg : Signedness} {n : Nat} {b : ByteSeq} (h : ¬ acceptedBytes sg n b) :
    fromBridge sg n b = none := by
  obtain ⟨hfit, htol⟩ := not_or.mp h
  rw [fromBridge]
  split_ifs with hl hneg
  · rfl
  · exact absurd ⟨hl, by simpa using hneg⟩ hfit
  · rfl

/-- FROMBRIDGE succeeds exactly on the accepted sequences (R172). -/
theorem isSome_fromBridge_iff {n : Nat} (hn : 0 < n) (sg : Signedness) (b : ByteSeq) :
    (fromBridge sg n b).isSome = true ↔ acceptedBytes sg n b := by
  by_cases h : acceptedBytes sg n b
  · simp [fromBridge_of_accepted hn h, h]
  · simp [fromBridge_of_not_accepted h, h]

/-- One byte beyond 4·N is tolerated exactly when the number is an unsigned one with its top bit set (R172). -/
theorem toleratedZero_iff_bval {n : Nat} (hn : 0 < n) {b : ByteSeq} (hl : b.length = 4 * n + 1) :
    toleratedZero .unsigned n b = true ↔ 2 ^ (32 * n - 1) ≤ bval b ∧ bval b < 2 ^ (32 * n) := by
  obtain ⟨c, x, rfl, hc⟩ := exists_eq_concat hl
  have hbits : 8 * c.length = 32 * n := by omega
  have hlt : (valBytes c : Int) < 2 ^ (32 * n) := by exact_mod_cast hbits ▸ valBytes_lt c
  have hpos : (0 : Int) < 2 ^ (32 * n - 1) := by positivity
  rw [toleratedZero_concat hn .unsigned hc, and_iff_right rfl, bridgeNegative_iff_le (by omega), hbits]
  constructor
  · rintro ⟨rfl, htop⟩
    rw [bval_concat_zero]
    exact ⟨by exact_mod_cast htop, hlt⟩
  · rintro ⟨hlo, hhi⟩
    have hx : x = 0 := by
      rw [bval_concat, hbits] at hlo hhi
      have hzero : x.toInt = 0 := by nlinarith
      exact BitVec.toInt_inj.mp hzero
    rw [hx, bval_concat_zero] at hlo
    exact ⟨hx, by exact_mod_cast hlo⟩

/-- A sequence that fits is accepted exactly when the type holds its number: of the signed numbers of at most 4·N bytes
an unsigned type lacks the negative ones (R172). -/
theorem acceptedBytes_iff_of_le {n : Nat} (hn : 0 < n) (sg : Signedness) {b : ByteSeq} (hl : b.length ≤ 4 * n) :
    acceptedBytes sg n b ↔ inRange sg n (bval b) := by
  have htol : ¬ toleratedZero sg n b = true := fun h => absurd (length_of_toleratedZero h) (by omega)
  have hsigned := inRange_signed_bval hn hl
  rw [acceptedBytes, or_iff_left htol, and_iff_right hl, bridgeNegative_iff_bval_neg]
  cases sg with
  | signed => simp [hsigned]
  | unsigned =>
    have hpow : (2 : Int) ^ (32 * n) = 2 * 2 ^ (32 * n - 1) := by exact_mod_cast two_pow_bits hn
    obtain ⟨hlo, hhi⟩ := hsigned
    simp only [inRange, true_and]
    omega

/-- The accepted sequences are those of an admitted length whose number the type holds (R172). -/
theorem acceptedBytes_iff {n : Nat} (hn : 0 < n) (sg : Signedness) (b : ByteSeq) :
    acceptedBytes sg n b ↔ admittedLength sg n b ∧ inRange sg n (bval b) := by
  by_cases hl : b.length ≤ 4 * n
  · rw [acceptedBytes_iff_of_le hn sg hl, admittedLength, and_iff_right (.inl hl)]
  · have hpos : (0 : Int) < 2 ^ (32 * n - 1) := by positivity
    rw [acceptedBytes, admittedLength, or_iff_right (fun h => hl h.1), or_iff_right hl]
    constructor
    · intro htol
      obtain ⟨rfl, hlen, -⟩ := (toleratedZero_iff sg n b).mp htol
      obtain ⟨hlo, hhi⟩ := (toleratedZero_iff_bval hn hlen).mp htol
      exact ⟨⟨rfl, hlen, hlo⟩, hpos.le.trans hlo, hhi⟩
    · rintro ⟨⟨rfl, hlen, hlo⟩, -, hhi⟩
      exact (toleratedZero_iff_bval hn hlen).mpr ⟨hlo, hhi⟩

/-- The limbs built from an accepted sequence are those of its number (R172). -/
theorem limbsOfBytes_of_accepted {n : Nat} (hn : 0 < n) {sg : Signedness} {b : ByteSeq} (h : acceptedBytes sg n b) :
    limbsOfBytes n (byteAt b (bridgePad b)) = limbsOf n (bval b) := by
  rw [eq_limbsOf_iff (length_limbsOfBytes ..)]
  rcases h with ⟨hl, -⟩ | htol
  · exact valU_signExtended b hl
  · obtain ⟨c, hc, rfl⟩ := exists_of_toleratedZero hn htol
    have hlt : (valBytes c : Int) < 2 ^ (32 * n) := by
      exact_mod_cast (show 8 * c.length = 32 * n by omega) ▸ valBytes_lt c
    rw [limbsOfBytes_byteAt_append hc _ _ 0, valU_limbsOfBytes_byteAt hc, bval_concat_zero,
      Int.emod_eq_of_lt (Int.natCast_nonneg _) hlt]

/-- What FROMBRIDGE builds: the vector of N limbs with the sequence's number, if the length is admitted (R172). -/
theorem fromBridge_eq_some_iff {n : Nat} (hn : 0 < n) (sg : Signedness) (b : ByteSeq) (v : LimbVec) :
    fromBridge sg n b = some v ↔ admittedLength sg n b ∧ v.length = n ∧ val sg n v = bval b := by
  constructor
  · intro h
    have hacc := (isSome_fromBridge_iff hn sg b).mp (Option.isSome_of_eq_some h)
    obtain ⟨hlen, hrange⟩ := (acceptedBytes_iff hn sg b).mp hacc
    rw [fromBridge_of_accepted hn hacc, limbsOfBytes_of_accepted hn hacc, Option.some_inj] at h
    subst h
    exact ⟨hlen, length_limbsOf .., val_limbsOf hn hrange⟩
  · rintro ⟨hlen, hv, hval⟩
    have hacc := (acceptedBytes_iff hn sg b).mpr ⟨hlen, hval ▸ inRange_val sg hn hv⟩
    rw [fromBridge_of_accepted hn hacc, limbsOfBytes_of_accepted hn hacc, ← hval, limbsOf_val sg hv]

/-- A sequence with the same number that is no longer has an admitted length too (R172). -/
theorem admittedLength_of_le {sg : Signedness} {n : Nat} {b c : ByteSeq} (hval : bval c = bval b)
    (hle : b.length ≤ c.length) (h : admittedLength sg n c) : admittedLength sg n b := by
  rcases h with hl | ⟨hsg, hl, hbig⟩
  · exact .inl (hle.trans hl)
  · rcases Nat.lt_or_eq_of_le hle with hlt | heq
    · exact .inl (by omega)
    · exact .inr ⟨hsg, heq.trans hl, hval ▸ hbig⟩

/-- TOBRIDGE delivers an admitted length (R171, R172). -/
theorem admittedLength_toBridge (sg : Signedness) {n : Nat} (hn : 0 < n) {v : LimbVec} (hv : v.length = n) :
    admittedLength sg n (toBridge sg n v) := by
  by_cases h : sg = .unsigned ∧ signbit n v = true
  · have hbig : 2 ^ (32 * n - 1) ≤ valU v := (signbit_iff hv hn).mp h.2
    rw [toBridge_of_long h]
    refine .inr ⟨h.1, by simp, ?_⟩
    rw [bval_concat_zero, valBytes_layout hv]
    exact_mod_cast hbig
  · rw [toBridge_of_not_long h]
    exact .inl (length_layout n v).le

/-- FROMBRIDGE gives back what TOBRIDGE delivers (R172). -/
theorem fromBridge_toBridge (sg : Signedness) {n : Nat} (hn : 0 < n) {v : LimbVec} (hv : v.length = n) :
    fromBridge sg n (toBridge sg n v) = some v :=
  (fromBridge_eq_some_iff hn sg _ v).mpr ⟨admittedLength_toBridge sg hn hv, hv, (bval_toBridge sg hn hv).symm⟩

end Sys2Proof.Machine
end

section
/-! The bridge's requests (R170 to R174): what the two operations answer, alone and for the host, and the obligations. -/
namespace Sys2Proof.Machine

/-- The bytes of a sequence continued by copies of its sign (R172). -/
theorem byteAt_bridgePad (b : ByteSeq) (m : Nat) : byteAt b (bridgePad b) m =
    if m < b.length then b.getD m 0 else if bridgeNegative b = true then 0xFF else 0x00 := by
  by_cases hm : m < b.length
  · rw [if_pos hm, byteAt, List.getD_eq_getElem _ _ hm, List.getD_eq_getElem _ _ hm]
  · rw [if_neg hm, byteAt, List.getD_eq_default _ _ (Nat.le_of_not_lt hm), bridgePad]

/-- What TOBRIDGE answers (R171). -/
theorem exec_toBridge_eq (sg : Signedness) (s : State) :
    exec (.toBridge sg) s = .next (s.answered (.bytes (toBridge sg s.width.limbs s.request.A))) := rfl

/-- What FROMBRIDGE answers: the vector it builds, or Zero, and whether it builds one (R172). -/
theorem exec_fromBridge_eq (sg : Signedness) (s : State) : exec (.fromBridge sg) s =
    .next (s.answered (.limbsFlag ((fromBridge sg s.width.limbs s.request.bin).getD (zeroVec s.width.limbs))
      (fromBridge sg s.width.limbs s.request.bin).isSome)) := by
  have he : exec (.fromBridge sg) s = _ := execFromBridge_eq sg s
  rw [he, limbCount_eq]
  cases fromBridge sg s.width.limbs s.request.bin <;> rfl

theorem exec_fromBridge_of_some {sg : Signedness} {s : State} {v : LimbVec}
    (h : fromBridge sg s.width.limbs s.request.bin = some v) :
    exec (.fromBridge sg) s = .next (s.answered (.limbsFlag v true)) := by
  rw [exec_fromBridge_eq, h]
  rfl

/-- The flag that FROMBRIDGE answers with, by the number of the sequence (R172). -/
theorem flagOf_fromBridge_iff (sg : Signedness) (s : State) : flagOf (.fromBridge sg) s = some true ↔
    admittedLength sg s.width.limbs s.request.bin ∧ inRange sg s.width.limbs (bval s.request.bin) := by
  rw [flagOf_fromBridge, limbCount_eq, Option.some_inj, isSome_fromBridge_iff (limbs_pos s.width),
    acceptedBytes_iff (limbs_pos s.width)]

/-- Settles O52: the bytes are those of the layout, with a zero byte after them in the one case. -/
theorem toBridgeAppendsTheDisambiguatingZero : Obligations.ToBridgeAppendsTheDisambiguatingZero := by
  refine ⟨⟨rfl, rfl⟩, fun s sg _ => ?_⟩
  have hlayout (i : Nat) (hi : i < s.width.limbs) (j : Nat) (hj : j < 4) :=
    layout_getElem? s.width.limbs s.request.A hi hj
  refine ⟨_, exec_toBridge_eq sg s, ?_⟩
  by_cases h : sg = .unsigned ∧ signbit s.width.limbs s.request.A = true
  · rw [toBridge_of_long h]
    refine ⟨fun i hi j hj => ?bytes, fun _ => ⟨?length, ?zero⟩, absurd h⟩
    case bytes => rw [List.getElem?_append_left (by rw [length_layout]; omega), hlayout i hi j hj]
    case length => rw [List.length_append, length_layout, List.length_singleton]
    case zero => rw [← length_layout s.width.limbs s.request.A, List.getElem?_concat_length]
  · rw [toBridge_of_not_long h]
    exact ⟨hlayout, fun hlong => absurd hlong h, fun _ => length_layout ..⟩

/-- Settles O53: the condition is `acceptedBytes` in the words of R172, and the limbs are made of four bytes each. -/
theorem fromBridgeBuildsTheValueOrFailsWithZero : Obligations.FromBridgeBuildsTheValueOrFailsWithZero := by
  refine ⟨⟨rfl, rfl⟩, fun s sg => ?_⟩
  simp only [← bridgeNegative_iff, ← toleratedZero_iff]
  refine ⟨fun h => ?_, fun h => ?_⟩
  · refine ⟨_, exec_fromBridge_of_some (fromBridge_of_accepted (limbs_pos _) h), length_limbsOfBytes .., fun i hi => ?_⟩
    rw [limb_limbsOfBytes _ _ i hi, toNat_limbOfBytes]
    simp only [byteAt_bridgePad]
  · rw [exec_fromBridge_eq, fromBridge_of_not_accepted h]
    rfl

/-- Settles O54: each of the three laws is the law of the function that the operation computes. -/
theorem bridgeValueLawsHold : Obligations.BridgeValueLawsHold := by
  intro s sg hA
  have hn := limbs_pos s.width
  refine ⟨⟨_, rfl, bval_toBridge sg hn hA⟩, ?flag, fun hflag => ?value⟩
  case flag =>
    rw [flagOf_fromBridge_iff, admittedLength, bits_eq, and_comm]
  case value =>
    rw [flagOf_fromBridge, Option.some_inj, Option.isSome_iff_exists] at hflag
    obtain ⟨v, hv⟩ := hflag
    obtain ⟨-, -, hval⟩ := (fromBridge_eq_some_iff hn ..).mp hv
    exact ⟨v, by rw [resultOf_fromBridge, hv]; rfl, hval⟩

/-- Settles O55: a number that fits has the sequence of its vector, of an admitted length, and a shortest one is no
longer. -/
theorem canonicalSequenceParsesExactlyWhenItFits : Obligations.CanonicalSequenceParsesExactlyWhenItFits := by
  intro s sg hcanonical
  have hn := limbs_pos s.width
  rw [flagOf_fromBridge_iff]
  refine and_iff_right_of_imp fun hrange => ?_
  have hlen := length_limbsOf s.width.limbs (bval s.request.bin)
  have hval := (bval_toBridge sg hn hlen).trans (val_limbsOf hn hrange)
  exact admittedLength_of_le hval (hcanonical _ hval) (admittedLength_toBridge sg hn hlen)

/-- Settles O56: the sequence on `bin` is the one that TOBRIDGE delivers of the value. -/
theorem bridgeRoundTripRestoresTheValue : Obligations.BridgeRoundTripRestoresTheValue := by
  intro s t sg hA hw hout
  have hbin : toBridge sg s.width.limbs s.request.A = t.request.bin :=
    Option.some.inj (congrArg Response.bout (Option.some.inj hout))
  apply exec_fromBridge_of_some
  rw [← hbin, hw, fromBridge_toBridge sg (limbs_pos _) hA]

/-- The host's Parse returns what FROMBRIDGE answers with (R173). -/
theorem hostParse_some (w : Width) (sg : Signedness) (b : ByteSeq) : hostParse w sg (some b) =
    some ((fromBridge sg w.limbs b).getD (zeroVec w.limbs), (fromBridge sg w.limbs b).isSome) := by
  rw [hostParse, answerAlone_forInstr_eq, exec_fromBridge_eq]
  rfl

/-- The host's Format hands on what TOBRIDGE answers with (R174). -/
theorem hostFormatBytes_eq (w : Width) (sg : Signedness) (v : LimbVec) :
    hostFormatBytes w sg v = some (toBridge sg w.limbs v) := by
  rw [hostFormatBytes, answerAlone_forInstr_eq]
  rfl

/-- Settles O57: the host's answers are those of the block, and its value laws are those of FROMBRIDGE and TOBRIDGE. -/
theorem parseAndFormatContractsHold : Obligations.ParseAndFormatContractsHold := by
  intro w sg
  have hn := limbs_pos w
  refine ⟨rfl, fun b => ?parse, fun v hv => ?format⟩
  case parse =>
    refine ⟨_, _, hostParse_some w sg b, ?_, ?_, ?_⟩
    · rintro s rfl rfl
      exact exec_fromBridge_eq sg s
    · intro hfail
      rw [Option.isSome_eq_false_iff, Option.isNone_iff_eq_none] at hfail
      rw [hfail]
      rfl
    · intro hsome
      obtain ⟨v, hv⟩ := Option.isSome_iff_exists.mp hsome
      obtain ⟨-, -, hval⟩ := (fromBridge_eq_some_iff hn sg b v).mp hv
      rwa [hv]
  case format =>
    refine ⟨_, hostFormatBytes_eq w sg v, ?_, bval_toBridge sg hn hv, ?_⟩
    · rintro s rfl rfl
      exact exec_toBridge_eq sg s
    · rw [hostParse_some, fromBridge_toBridge sg hn hv]
      rfl

end Sys2Proof.Machine
end

section
/-! The three signals (R190): which operation raises which, and when. A signal is one that the operation's format may raise,
and that format has no other operations; whether FROMBYTES raises its own is a matter of blen. -/
namespace Sys2Proof.Machine

/-- The two kinds of operation that signal (R190). -/
theorem mayRaise_iff (f : Format) (sig : Signal) : mayRaise f sig = true ↔
    (sig = .invalidArgument ∧ f = .y) ∨ (sig = .notImplemented ∧ f = .lx) := by
  cases f <;> cases sig <;> decide

/-- FROMBYTES is the one operation of format Y (R62). -/
theorem eq_fromBytes_of_format {i : Instr} (h : i.format = .y) : ∃ sg, i = .fromBytes sg := by
  cases i
  case fromBytes sg => exact ⟨sg, rfl⟩
  all_goals cases h

/-- MUL, DIV and MOD are the operations of format LX (R62). -/
theorem eq_mul_or_div_or_mod_of_format {i : Instr} (h : i.format = .lx) :
    ∃ sg, i = .mul sg ∨ i = .div sg ∨ i = .mod sg := by
  cases i
  case mul sg => exact ⟨sg, .inl rfl⟩
  case div sg => exact ⟨sg, .inr (.inl rfl)⟩
  case mod sg => exact ⟨sg, .inr (.inr rfl)⟩
  all_goals cases h

/-- An operation answers with one response only. -/
theorem response_eq_of_exec {i : Instr} {s : State} {q r : Response} (hq : exec i s = .next (s.answered q))
    (hr : exec i s = .next (s.answered r)) : q = r :=
  Option.some.inj (congrArg responseOf (hq.symm.trans hr))

/-- A signalled response is the signal alone, and the signal is one that the format may raise (R190, R198). -/
theorem eq_signal_of_exec {i : Instr} {s : State} {r : Response} {sig : Signal} (hr : exec i s = .next (s.answered r))
    (hs : r.status = .signalled sig) : mayRaise i.format sig = true ∧ r = .signal sig := by
  have hfit := fits_of_responseOf_exec (congrArg responseOf hr)
  obtain ⟨_, R, ord, flag, bout⟩ := r
  obtain rfl : _ = Status.signalled sig := hs
  simpa [Response.fits, Response.signal, Response.okOnly, and_assoc] using hfit

/-- The two causes for which an operation signals: a wrong blen at FROMBYTES, and being MUL, DIV or MOD (R190 to R192). -/
theorem signalled_iff {i : Instr} {s : State} {r : Response} (hr : exec i s = .next (s.answered r)) (sig : Signal) :
    r.status = .signalled sig ↔
      (sig = .invalidArgument ∧ ∃ sg, i = .fromBytes sg ∧ s.request.blen ≠ 4 * s.width.limbs) ∨
      (sig = .notImplemented ∧ ∃ sg, i = .mul sg ∨ i = .div sg ∨ i = .mod sg) := by
  constructor
  · intro hs
    obtain ⟨hraise, rfl⟩ := eq_signal_of_exec hr hs
    rcases (mayRaise_iff i.format sig).mp hraise with ⟨rfl, hf⟩ | ⟨rfl, hf⟩
    · obtain ⟨sg, rfl⟩ := eq_fromBytes_of_format hf
      refine .inl ⟨rfl, sg, rfl, fun hlen => ?_⟩
      cases response_eq_of_exec hr (exec_fromBytes_of_blen sg hlen)
    · exact .inr ⟨rfl, eq_mul_or_div_or_mod_of_format hf⟩
  · rintro (⟨rfl, sg, rfl, hlen⟩ | ⟨rfl, sg, hop⟩)
    · rw [response_eq_of_exec hr (exec_fromBytes_of_blen_ne sg hlen), signal_status]
    · obtain ⟨-, -, -, hsignal⟩ := mulDivModSignalNotImplemented
      obtain ⟨hmul, hdiv, hmod⟩ := hsignal s sg
      rcases hop with rfl | rfl | rfl
      · rw [response_eq_of_exec hr hmul, signal_status]
      · rw [response_eq_of_exec hr hdiv, signal_status]
      · rw [response_eq_of_exec hr hmod, signal_status]

/-- A signalled response carries no result port (R190, R198). -/
theorem no_result_of_signalled {i : Instr} {s : State} {r : Response} (hr : exec i s = .next (s.answered r))
    (hs : r.status ≠ .ok) : r.R = none ∧ r.ord = none ∧ r.flag = none ∧ r.bout = none := by
  cases hst : r.status with
  | ok => exact absurd hst hs
  | signalled sig =>
    obtain ⟨-, rfl⟩ := eq_signal_of_exec hr hst
    exact ⟨rfl, rfl, rfl, rfl⟩

/-- Settles O16: an illegal byte gets its own signal, and a legal one the signals of its operation. -/
theorem signalsAreRaisedExactlyByTheirCauses : Obligations.SignalsAreRaisedExactlyByTheirCauses := by
  intro s hp
  cases hd : decode s.request.cmd with
  | error e => exact ⟨_, step_of_illegal hp hd, by simp, by simp, by simp, fun _ => ⟨rfl, rfl, rfl, rfl⟩⟩
  | ok i =>
    obtain ⟨r, hr⟩ := exec_answers i s
    have hstep : step s = .next (s.answered r) := (stepExecutesTheDecodedInstruction s i hp hd).trans hr
    refine ⟨r, hstep, ?invalidArgument, ?notImplemented, ?illegalRequest, no_result_of_signalled hr⟩
    case invalidArgument => simp [signalled_iff hr]
    case notImplemented => simp [signalled_iff hr]
    case illegalRequest => simp [signalled_iff hr]

/-- Settles O17: an operation that signals is FROMBYTES or one of MUL, DIV and MOD. -/
theorem allOtherOperationsAlwaysAnswerOk : Obligations.AllOtherOperationsAlwaysAnswerOk := by
  intro s i hi
  obtain ⟨r, hr⟩ := exec_answers i s
  refine ⟨r, hr, ?_⟩
  cases hs : r.status with
  | ok => rfl
  | signalled sig =>
    rcases (signalled_iff hr sig).mp hs with ⟨-, sg, hfrom, -⟩ | ⟨-, sg, hop⟩
    · exact absurd hfrom (hi sg).1
    · obtain ⟨-, hmul, hdiv, hmod⟩ := hi sg
      exact absurd hop (by simp [hmul, hdiv, hmod])

end Sys2Proof.Machine
end

section
/-! Several instances (R51, R202): issuing a request to one is a change of its place in the list and of no other. -/
namespace Sys2Proof.Machine

/-- What becomes of a machine that a request is issued to: it answers, or stays as it is while it is taking another request
(R52). -/
def State.served (r : Request) (s : State) : State :=
  match (s.present r).map step with
  | some (.next t) => t
  | _ => s

/-- A machine that takes the request answers it as if it were alone (R51). -/
theorem served_of_present {s t : State} {r : Request} (h : s.present r = some t) :
    ∃ q, answerAlone s.width r = some q ∧ s.served r = t.answered q := by
  obtain ⟨-, rfl⟩ := (present_eq_some_iff s t r).mp h
  obtain ⟨q, hq, hs⟩ := step_taking_answers_as_alone s r
  exact ⟨q, hq, by simp only [State.served, h, Option.map_some, hs]⟩

/-- Issuing to one of several instances serves the one at that place (R202). -/
theorem issueTo_eq_modify (sys : List State) (k : Nat) (r : Request) :
    issueTo sys k r = sys.modify k (State.served r) := by
  rw [List.modify_eq_set_getElem?]
  cases hk : sys[k]? with
  | none => simp [issueTo, hk]
  | some s =>
    cases hp : s.present r with
    | none =>
      have hsame : sys.set k s = sys := by
        obtain ⟨hlt, rfl⟩ := List.getElem?_eq_some_iff.mp hk
        exact List.set_getElem_self hlt
      simp [issueTo, State.served, hk, hp, hsame]
    | some t =>
      obtain ⟨-, rfl⟩ := (present_eq_some_iff s t r).mp hp
      obtain ⟨q, -, hs⟩ := step_taking_answers_as_alone s r
      simp [issueTo, State.served, hk, hp, hs]

/-- Settles O20: changes at two places of a list are independent of each other. -/
theorem instancesShareNothing : Obligations.InstancesShareNothing := by
  simp only [Obligations.InstancesShareNothing, issueTo_eq_modify]
  refine ⟨fun sys j p s t hs ht => ?servedPlace, fun sys j k p q hjk => ⟨?otherPlace, ?eitherOrder⟩,
    fun _ _ p s _ hp => ⟨s.taking p, present_of_not_pending hp p, rfl, rfl⟩⟩
  case servedPlace =>
    obtain ⟨r, hr, hserved⟩ := served_of_present ht
    exact ⟨r, hr, by rw [List.getElem?_modify_eq, hs, ← hserved]; rfl⟩
  case otherPlace => exact List.getElem?_modify_ne _ _ hjk
  case eitherOrder => exact List.modify_modify_ne _ _ _ hjk

end Sys2Proof.Machine
end

section
/-! What a request gets (R216), and what becomes of one that the platform's reset cuts off (R210). -/
namespace Sys2Proof.Machine

/-- Settles O11: a legal command byte gets the response of its operation, an illegal one the signal. -/
theorem everyRequestGetsOneFittingResponse : Obligations.EveryRequestGetsOneFittingResponse :=
  fun _ hp => step_answers_matching hp

/-- After the platform's reset the block waits: the request it was taking gets no response (R210). -/
theorem step_applyReset (s : State) : step s.applyReset = .next s.applyReset :=
  stepWithoutRequestClearsResponse s.applyReset (applyReset_pending s)

/-- Settles O22: the fields after reset, the step that waits, and a request that can be issued and is answered as if
alone. -/
theorem resetDiscardsTheRequestAndKeepsTheWidth : Obligations.ResetDiscardsTheRequestAndKeepsTheWidth := by
  refine ⟨fun w => ⟨rfl, rfl, rfl⟩, fun s => ⟨applyReset_width s, applyReset_pending s, applyReset_response s⟩,
    fun s t hst => ?noResponse, fun s r => ?nextRequest⟩
  case noResponse =>
    cases (step_applyReset s).symm.trans hst
    exact applyReset_response s
  case nextRequest =>
    obtain ⟨q, hq, hs⟩ := step_taking_answers_as_alone s.applyReset r
    exact ⟨s.applyReset.taking r, q, present_of_not_pending (applyReset_pending s) r, hq, hs⟩

end Sys2Proof.Machine
end
